-- ==== Sys2Proof/Config.lean ====
section
/-! DEFINITION. What is fixed for one B32CORE: the parameters of spec 00_scope.md R5. -/

namespace Sys2Proof.Config

/-- The identity string a model may use (R1, D28). No port returns it. -/
def identity : String := "B32CORE-crockford-phayes_base32-v7"

/-- `BYTE_BITS` (R5). -/
def byteBits : Nat := 8
/-- `GROUP_BITS` (R5). -/
def groupBits : Nat := 5
/-- `ALPHABET_SIZE` (R5). -/
def alphabetSize : Nat := 32
/-- `CHUNK_BYTES` (R5). -/
def chunkBytes : Nat := 5
/-- `CHUNK_SYMS` (R5). -/
def chunkSyms : Nat := 8
/-- `CHUNK_BITS` (R5). -/
def chunkBits : Nat := 40
/-- `SYM_BITS` (R5, D2). -/
def symBits : Nat := 8

/-- `ENC_DEPTH - 1`: OPEN in R5, so a constant without a value. UNVERIFIED, safe (log 4). -/
opaque encDepthPred : Nat
/-- `DEC_DEPTH - 1`: OPEN in R5, so a constant without a value. UNVERIFIED, safe (log 4). -/
opaque decDepthPred : Nat

/-- `ENC_DEPTH`, an integer of at least 1 (R5, D19): the most requests ENC holds accepted but not yet delivered. -/
def encDepth : Nat := encDepthPred + 1
/-- `DEC_DEPTH`, an integer of at least 1 (R5, D19): the same for DEC. -/
def decDepth : Nat := decDepthPred + 1

end Sys2Proof.Config
end

