-- ==== Sys2Proof/Word.lean ====
section
/-! DEFINITION. The words of B32CORE: bytes, symbols, groups and the four port words (spec 30_encoding.md R53). -/

namespace Sys2Proof

/-- An 8-bit payload value (00_scope.md R5 `BYTE_BITS`). -/
abbrev Byte := BitVec 8

/-- An 8-bit symbol code, any of 256 values (00_scope.md R5 `SYM_BITS`, R12; 30_encoding.md R57). -/
abbrev Sym := BitVec 8

/-- A 5-bit group, the value of one symbol (00_scope.md R5 `GROUP_BITS`). -/
abbrev Group := BitVec 5

/-- Encoder request word, 43 bits: `LEN[42:40]`, `DATA[39:0]` (R53, R54). -/
abbrev EReq := BitVec 43

/-- Encoder response word, 70 bits: `STATUS[69:68]`, `CNT[67:64]`, `SYM[63:0]` (R53, R55). -/
abbrev ERsp := BitVec 70

/-- Decoder request word, 68 bits: `CNT[67:64]`, `SYM[63:0]` (R53, R57). -/
abbrev DReq := BitVec 68

/-- Decoder response word, 48 bits: `STATUS[47:46]`, `ERRIDX[45:43]`, `LEN[42:40]`, `DATA[39:0]` (R53, R58). -/
abbrev DRsp := BitVec 48

/-- The two units of the block (00_scope.md R1, R4). -/
inductive UnitId where
  | enc
  | dec
  deriving DecidableEq, Repr

/-- A request word together with the port it travels on, which alone decides its format (30_encoding.md R66). -/
inductive PortWord where
  | enc (w : EReq)
  | dec (w : DReq)
  deriving DecidableEq, Repr

/-- The unit whose request port carries the word. -/
def PortWord.unit : PortWord → UnitId
  | .enc _ => .enc
  | .dec _ => .dec

end Sys2Proof
end

