-- ==== Sys2Proof/Syntax.lean ====
section
/-! DEFINITION. The request forms of B32CORE, its instructions: one constructor per row of spec/opcode_table.json
(spec 30_encoding.md R59, R60). Payload lanes are separate operands; the don't-care lanes of a form (R63) are one
operand, the last, kept so that a word and its instruction hold the same bits (log 12). -/

namespace Sys2Proof

/-- A request form with its operands. `b<i>` is byte lane `i`, `s<k>` symbol lane `k` (R56, R67). -/
inductive Instr where
  /-- `ENC0`, no payload (40_encoder.md R77). -/
  | enc0 (dontCare : BitVec 40)
  /-- `ENC1` (R78). -/
  | enc1 (b0 : Byte) (dontCare : BitVec 32)
  /-- `ENC2` (R79). -/
  | enc2 (b0 b1 : Byte) (dontCare : BitVec 24)
  /-- `ENC3` (R80). -/
  | enc3 (b0 b1 b2 : Byte) (dontCare : BitVec 16)
  /-- `ENC4` (R81). -/
  | enc4 (b0 b1 b2 b3 : Byte) (dontCare : BitVec 8)
  /-- `ENC5`, a full chunk (R82). -/
  | enc5 (b0 b1 b2 b3 b4 : Byte)
  /-- `ENC.ILL6`, illegal length 6 (R83). -/
  | encIll6 (data : BitVec 40)
  /-- `ENC.ILL7`, illegal length 7 (R84). -/
  | encIll7 (data : BitVec 40)
  /-- `DEC0`, no symbol (41_decoder.md R99). -/
  | dec0 (dontCare : BitVec 64)
  /-- `DEC1` (R100). -/
  | dec1 (s0 : Sym) (dontCare : BitVec 56)
  /-- `DEC2` (R101). -/
  | dec2 (s0 s1 : Sym) (dontCare : BitVec 48)
  /-- `DEC3` (R102). -/
  | dec3 (s0 s1 s2 : Sym) (dontCare : BitVec 40)
  /-- `DEC4` (R103). -/
  | dec4 (s0 s1 s2 s3 : Sym) (dontCare : BitVec 32)
  /-- `DEC5` (R104). -/
  | dec5 (s0 s1 s2 s3 s4 : Sym) (dontCare : BitVec 24)
  /-- `DEC6` (R105). -/
  | dec6 (s0 s1 s2 s3 s4 s5 : Sym) (dontCare : BitVec 16)
  /-- `DEC7` (R106). -/
  | dec7 (s0 s1 s2 s3 s4 s5 s6 : Sym) (dontCare : BitVec 8)
  /-- `DEC8`, a full chunk (R107). -/
  | dec8 (s0 s1 s2 s3 s4 s5 s6 s7 : Sym)
  /-- `DEC.ILL9`, illegal count 9 (R108). -/
  | decIll9 (sym : BitVec 64)
  /-- `DEC.ILL10` (R109). -/
  | decIll10 (sym : BitVec 64)
  /-- `DEC.ILL11` (R110). -/
  | decIll11 (sym : BitVec 64)
  /-- `DEC.ILL12` (R111). -/
  | decIll12 (sym : BitVec 64)
  /-- `DEC.ILL13` (R112). -/
  | decIll13 (sym : BitVec 64)
  /-- `DEC.ILL14` (R113). -/
  | decIll14 (sym : BitVec 64)
  /-- `DEC.ILL15` (R114). -/
  | decIll15 (sym : BitVec 64)
  deriving DecidableEq, Repr

end Sys2Proof
end

