-- ==== Sys2Proof/WellFormed.lean ====
section
/-! DEFINITION. Which terms of Instr are instructions. The operand types already fix every width, and
"Every request word is accepted, whatever its fields" (spec 20_memory.md R38), so no term is ill-formed and the check
of an instruction has no clause that could fail (log 12). What CAN be malformed on this hardware is a RESPONSE word
(30_encoding.md R64): that check is Machine/Flags.lean's `eRspFault` and `dRspFault`. -/

namespace Sys2Proof

/-- Every form with every operand is well formed (R38, R63). -/
def Instr.wf : Instr → Bool
  | .enc0 _ => true
  | .enc1 _ _ => true
  | .enc2 _ _ _ => true
  | .enc3 _ _ _ _ => true
  | .enc4 _ _ _ _ _ => true
  | .enc5 _ _ _ _ _ => true
  | .encIll6 _ => true
  | .encIll7 _ => true
  | .dec0 _ => true
  | .dec1 _ _ => true
  | .dec2 _ _ _ => true
  | .dec3 _ _ _ _ => true
  | .dec4 _ _ _ _ _ => true
  | .dec5 _ _ _ _ _ _ => true
  | .dec6 _ _ _ _ _ _ _ => true
  | .dec7 _ _ _ _ _ _ _ _ => true
  | .dec8 _ _ _ _ _ _ _ _ => true
  | .decIll9 _ => true
  | .decIll10 _ => true
  | .decIll11 _ => true
  | .decIll12 _ => true
  | .decIll13 _ => true
  | .decIll14 _ => true
  | .decIll15 _ => true

end Sys2Proof
end

