-- ==== Sys2Proof/Decode.lean ====
section
/-! DEFINITION. Request words to instructions and back: lane selectors (spec 30_encoding.md R56), request fields
(R54, R57), form selection (R59, R60), the encoder, and the rows of spec/opcode_table.json. -/

namespace Sys2Proof

/-! ### Lanes -/

/-- `blane(d, i) = d[39-8i : 32-8i]`, byte lane `i` of a 40-bit byte word (R56). -/
def blane (d : BitVec 40) (i : Nat) : Byte := d.extractLsb' (32 - 8 * i) 8

/-- `lane8(w, k) = w[63-8k : 56-8k]`, symbol lane `k` of a 64-bit symbol word (R56). -/
def lane8 (w : BitVec 64) (k : Nat) : Sym := w.extractLsb' (56 - 8 * k) 8

/-! ### Fields of the request words -/

/-- `EReq.LEN`, bits 42:40 (R54). -/
def eReqLen (w : EReq) : BitVec 3 := w.extractLsb' 40 3

/-- `EReq.DATA`, bits 39:0 (R54). -/
def eReqData (w : EReq) : BitVec 40 := w.extractLsb' 0 40

/-- `DReq.CNT`, bits 67:64 (R57). -/
def dReqCnt (w : DReq) : BitVec 4 := w.extractLsb' 64 4

/-- `DReq.SYM`, bits 63:0 (R57). -/
def dReqSym (w : DReq) : BitVec 64 := w.extractLsb' 0 64

/-- The `EReq` with the given fields (R54). -/
def eReqWord (len : BitVec 3) (data : BitVec 40) : EReq := len ++ data

/-- The `DReq` with the given fields (R57). -/
def dReqWord (cnt : BitVec 4) (sym : BitVec 64) : DReq := cnt ++ sym

/-! ### Decoding -/

/-- The form of an encoder request, selected by `LEN` alone (R59); its payload lanes are read out once, here. -/
def decodeEReq (w : EReq) : Instr :=
  let d := eReqData w
  match eReqLen w with
  | 0b000#3 => .enc0 d
  | 0b001#3 => .enc1 (blane d 0) (d.extractLsb' 0 32)
  | 0b010#3 => .enc2 (blane d 0) (blane d 1) (d.extractLsb' 0 24)
  | 0b011#3 => .enc3 (blane d 0) (blane d 1) (blane d 2) (d.extractLsb' 0 16)
  | 0b100#3 => .enc4 (blane d 0) (blane d 1) (blane d 2) (blane d 3) (d.extractLsb' 0 8)
  | 0b101#3 => .enc5 (blane d 0) (blane d 1) (blane d 2) (blane d 3) (blane d 4)
  | 0b110#3 => .encIll6 d
  | 0b111#3 => .encIll7 d

/-- The form of a decoder request, selected by `CNT` alone (R60). -/
def decodeDReq (w : DReq) : Instr :=
  let y := dReqSym w
  match dReqCnt w with
  | 0b0000#4 => .dec0 y
  | 0b0001#4 => .dec1 (lane8 y 0) (y.extractLsb' 0 56)
  | 0b0010#4 => .dec2 (lane8 y 0) (lane8 y 1) (y.extractLsb' 0 48)
  | 0b0011#4 => .dec3 (lane8 y 0) (lane8 y 1) (lane8 y 2) (y.extractLsb' 0 40)
  | 0b0100#4 => .dec4 (lane8 y 0) (lane8 y 1) (lane8 y 2) (lane8 y 3) (y.extractLsb' 0 32)
  | 0b0101#4 =>
    .dec5 (lane8 y 0) (lane8 y 1) (lane8 y 2) (lane8 y 3) (lane8 y 4) (y.extractLsb' 0 24)
  | 0b0110#4 =>
    .dec6 (lane8 y 0) (lane8 y 1) (lane8 y 2) (lane8 y 3) (lane8 y 4) (lane8 y 5) (y.extractLsb' 0 16)
  | 0b0111#4 =>
    .dec7 (lane8 y 0) (lane8 y 1) (lane8 y 2) (lane8 y 3) (lane8 y 4) (lane8 y 5) (lane8 y 6)
      (y.extractLsb' 0 8)
  | 0b1000#4 =>
    .dec8 (lane8 y 0) (lane8 y 1) (lane8 y 2) (lane8 y 3) (lane8 y 4) (lane8 y 5) (lane8 y 6) (lane8 y 7)
  | 0b1001#4 => .decIll9 y
  | 0b1010#4 => .decIll10 y
  | 0b1011#4 => .decIll11 y
  | 0b1100#4 => .decIll12 y
  | 0b1101#4 => .decIll13 y
  | 0b1110#4 => .decIll14 y
  | _ => .decIll15 y  -- 0b1111, the one value of CNT left (test_cnt_values)

/-- The instruction a request word is: its port decides the format (R66), its count field the form. Total: "Every
request word is accepted" (20_memory.md R38). -/
def decodeWord : PortWord → Instr
  | .enc w => decodeEReq w
  | .dec w => decodeDReq w

/-- Why a NUMBER is no request word of a port. Numbers of the port's width always decode (R38); these two are the only
rejections there are. -/
inductive DecodeReject where
  /-- The number needs more than the 43 bits of an `EReq` (R53). Safe: no such word exists. -/
  | widerThanEReq
  /-- The number needs more than the 68 bits of a `DReq` (R53). Safe: no such word exists. -/
  | widerThanDReq
  deriving DecidableEq, Repr

/-- Decoding of a number presented on a port: rejected by name when it does not fit the port's word (R53). -/
def decodeNumber (u : UnitId) (w : Nat) : Except DecodeReject Instr :=
  match u with
  | .enc => if w < 2 ^ 43 then .ok (decodeEReq (BitVec.ofNat 43 w)) else .error .widerThanEReq
  | .dec => if w < 2 ^ 68 then .ok (decodeDReq (BitVec.ofNat 68 w)) else .error .widerThanDReq

/-! ### Encoding -/

/-- The request word of an instruction, from the form map (R59, R60) and the lane layout (R54, R57). -/
def encode : Instr → PortWord
  | .enc0 x => .enc (eReqWord 0b000 x)
  | .enc1 b0 x => .enc (eReqWord 0b001 (b0 ++ x))
  | .enc2 b0 b1 x => .enc (eReqWord 0b010 (b0 ++ b1 ++ x))
  | .enc3 b0 b1 b2 x => .enc (eReqWord 0b011 (b0 ++ b1 ++ b2 ++ x))
  | .enc4 b0 b1 b2 b3 x => .enc (eReqWord 0b100 (b0 ++ b1 ++ b2 ++ b3 ++ x))
  | .enc5 b0 b1 b2 b3 b4 => .enc (eReqWord 0b101 (b0 ++ b1 ++ b2 ++ b3 ++ b4))
  | .encIll6 d => .enc (eReqWord 0b110 d)
  | .encIll7 d => .enc (eReqWord 0b111 d)
  | .dec0 x => .dec (dReqWord 0b0000 x)
  | .dec1 s0 x => .dec (dReqWord 0b0001 (s0 ++ x))
  | .dec2 s0 s1 x => .dec (dReqWord 0b0010 (s0 ++ s1 ++ x))
  | .dec3 s0 s1 s2 x => .dec (dReqWord 0b0011 (s0 ++ s1 ++ s2 ++ x))
  | .dec4 s0 s1 s2 s3 x => .dec (dReqWord 0b0100 (s0 ++ s1 ++ s2 ++ s3 ++ x))
  | .dec5 s0 s1 s2 s3 s4 x => .dec (dReqWord 0b0101 (s0 ++ s1 ++ s2 ++ s3 ++ s4 ++ x))
  | .dec6 s0 s1 s2 s3 s4 s5 x => .dec (dReqWord 0b0110 (s0 ++ s1 ++ s2 ++ s3 ++ s4 ++ s5 ++ x))
  | .dec7 s0 s1 s2 s3 s4 s5 s6 x =>
    .dec (dReqWord 0b0111 (s0 ++ s1 ++ s2 ++ s3 ++ s4 ++ s5 ++ s6 ++ x))
  | .dec8 s0 s1 s2 s3 s4 s5 s6 s7 =>
    .dec (dReqWord 0b1000 (s0 ++ s1 ++ s2 ++ s3 ++ s4 ++ s5 ++ s6 ++ s7))
  | .decIll9 y => .dec (dReqWord 0b1001 y)
  | .decIll10 y => .dec (dReqWord 0b1010 y)
  | .decIll11 y => .dec (dReqWord 0b1011 y)
  | .decIll12 y => .dec (dReqWord 0b1100 y)
  | .decIll13 y => .dec (dReqWord 0b1101 y)
  | .decIll14 y => .dec (dReqWord 0b1110 y)
  | .decIll15 y => .dec (dReqWord 0b1111 y)

/-! ### The opcode table -/

/-- The name a form has in spec/opcode_table.json. -/
def Instr.mnemonic : Instr → String
  | .enc0 _ => "ENC0"
  | .enc1 _ _ => "ENC1"
  | .enc2 _ _ _ => "ENC2"
  | .enc3 _ _ _ _ => "ENC3"
  | .enc4 _ _ _ _ _ => "ENC4"
  | .enc5 _ _ _ _ _ => "ENC5"
  | .encIll6 _ => "ENC.ILL6"
  | .encIll7 _ => "ENC.ILL7"
  | .dec0 _ => "DEC0"
  | .dec1 _ _ => "DEC1"
  | .dec2 _ _ _ => "DEC2"
  | .dec3 _ _ _ _ => "DEC3"
  | .dec4 _ _ _ _ _ => "DEC4"
  | .dec5 _ _ _ _ _ _ => "DEC5"
  | .dec6 _ _ _ _ _ _ _ => "DEC6"
  | .dec7 _ _ _ _ _ _ _ _ => "DEC7"
  | .dec8 _ _ _ _ _ _ _ _ => "DEC8"
  | .decIll9 _ => "DEC.ILL9"
  | .decIll10 _ => "DEC.ILL10"
  | .decIll11 _ => "DEC.ILL11"
  | .decIll12 _ => "DEC.ILL12"
  | .decIll13 _ => "DEC.ILL13"
  | .decIll14 _ => "DEC.ILL14"
  | .decIll15 _ => "DEC.ILL15"

/-- One row of spec/opcode_table.json: the words `w` of `unit`'s port with `w &&& mask = pattern`. -/
structure OpcodeRow where
  mnemonic : String
  unit : UnitId
  pattern : Nat
  mask : Nat
  deriving DecidableEq, Repr

/-- The rows of the ENC port, from spec/opcode_table.json. -/
def encRows : List OpcodeRow :=
  [⟨"ENC0", .enc, 0x00000000000, 0x70000000000⟩, ⟨"ENC1", .enc, 0x10000000000, 0x70000000000⟩,
   ⟨"ENC2", .enc, 0x20000000000, 0x70000000000⟩, ⟨"ENC3", .enc, 0x30000000000, 0x70000000000⟩,
   ⟨"ENC4", .enc, 0x40000000000, 0x70000000000⟩, ⟨"ENC5", .enc, 0x50000000000, 0x70000000000⟩,
   ⟨"ENC.ILL6", .enc, 0x60000000000, 0x70000000000⟩, ⟨"ENC.ILL7", .enc, 0x70000000000, 0x70000000000⟩]

/-- The rows of the DEC port, from spec/opcode_table.json. -/
def decRows : List OpcodeRow :=
  [⟨"DEC0", .dec, 0x00000000000000000, 0xF0000000000000000⟩,
   ⟨"DEC1", .dec, 0x10000000000000000, 0xF0000000000000000⟩,
   ⟨"DEC2", .dec, 0x20000000000000000, 0xF0000000000000000⟩,
   ⟨"DEC3", .dec, 0x30000000000000000, 0xF0000000000000000⟩,
   ⟨"DEC4", .dec, 0x40000000000000000, 0xF0000000000000000⟩,
   ⟨"DEC5", .dec, 0x50000000000000000, 0xF0000000000000000⟩,
   ⟨"DEC6", .dec, 0x60000000000000000, 0xF0000000000000000⟩,
   ⟨"DEC7", .dec, 0x70000000000000000, 0xF0000000000000000⟩,
   ⟨"DEC8", .dec, 0x80000000000000000, 0xF0000000000000000⟩,
   ⟨"DEC.ILL9", .dec, 0x90000000000000000, 0xF0000000000000000⟩,
   ⟨"DEC.ILL10", .dec, 0xA0000000000000000, 0xF0000000000000000⟩,
   ⟨"DEC.ILL11", .dec, 0xB0000000000000000, 0xF0000000000000000⟩,
   ⟨"DEC.ILL12", .dec, 0xC0000000000000000, 0xF0000000000000000⟩,
   ⟨"DEC.ILL13", .dec, 0xD0000000000000000, 0xF0000000000000000⟩,
   ⟨"DEC.ILL14", .dec, 0xE0000000000000000, 0xF0000000000000000⟩,
   ⟨"DEC.ILL15", .dec, 0xF0000000000000000, 0xF0000000000000000⟩]

/-- The port of a table word of `nbits` bits: the table's rows are 43 bits wide on ENC and 68 on DEC, 48 and 72 in
whole bytes. DESIGN CHOICE, safe (log 9). -/
def tablePort (nbits : Nat) : UnitId := if nbits < 68 then .enc else .dec

/-- The instruction the decoder reads from the table word `w` of `nbits` bits; none where it refuses (log 9). -/
def decodeTableWord (nbits w : Nat) : Option Instr :=
  match decodeNumber (tablePort nbits) w with
  | .ok i => some i
  | .error _ => none

end Sys2Proof
end

