-- ==== Sys2Proof/Machine/Operands.lean ====
section
/-! DEFINITION. Operand forms and tables: `ALPHA`, `fold` and `INV` (spec 10_state.md R21-R24), the eight groups of a
byte chunk (40_encoder.md R73), the five bytes of a symbol chunk (41_decoder.md R91), lane packing (30_encoding.md R56)
and the fields of the response words (R55, R58). -/

namespace Sys2Proof.Machine

/-! ### The constant tables -/

/-- The alphabet `0123456789ABCDEFGHJKMNPQRSTVWXYZ` in ASCII codes, entry by entry as R21's table gives it (D2). -/
def alphabet : List Sym :=
  [0x30, 0x31, 0x32, 0x33, 0x34, 0x35, 0x36, 0x37, 0x38, 0x39, 0x41, 0x42, 0x43, 0x44, 0x45, 0x46,
   0x47, 0x48, 0x4A, 0x4B, 0x4D, 0x4E, 0x50, 0x51, 0x52, 0x53, 0x54, 0x56, 0x57, 0x58, 0x59, 0x5A]

/-- `ALPHA[g]`: the code of the `g`-th character of the alphabet (R21). -/
def alpha (g : Group) : Sym := alphabet.getD g.toNat 0

/-- `fold(c)`: `c - 0x20` for `a`..`z`, every other code unchanged (R23, D3). -/
def fold (c : Sym) : Sym := if 0x61 ≤ c.toNat ∧ c.toNat ≤ 0x7A then c - 0x20 else c

/-- The other direction for letters, used to state case tolerance (42_message.md R127). -/
def lowerCode (c : Sym) : Sym := if 0x41 ≤ c.toNat ∧ c.toNat ≤ 0x5A then c + 0x20 else c

/-- One entry of `INV`: a valid bit and a 5-bit value (R24, D30). -/
structure InvEntry where
  valid : Bool
  value : Group
  deriving DecidableEq, Repr

/-- The place of a code in a list of codes, counted from `n`. -/
def placeFrom (n : Nat) (u : Sym) : List Sym → Option Nat
  | [] => none
  | c :: cs => if c = u then some n else placeFrom (n + 1) u cs

/-- `INV[c]`, built from the alphabet and the aliases as R24 says (90_conflicts.md C1). -/
def inv (c : Sym) : InvEntry :=
  let u := fold c
  match placeFrom 0 u alphabet with
  | some g => ⟨true, BitVec.ofNat 5 g⟩
  | none =>
    if u = 0x49 ∨ u = 0x4C then ⟨true, 1⟩
    else if u = 0x4F then ⟨true, 0⟩
    else ⟨false, 0⟩

/-! ### Lane packing -/

/-- The 40-bit byte word whose lane `i` is `f i` (R56; lane 0 most significant, 20_memory.md R36). -/
def byteWord (f : Nat → Byte) : BitVec 40 := f 0 ++ f 1 ++ f 2 ++ f 3 ++ f 4

/-- The 64-bit symbol word whose lane `k` is `f k` (R56; lane 0 most significant, 20_memory.md R37). -/
def symWord (f : Nat → Sym) : BitVec 64 := f 0 ++ f 1 ++ f 2 ++ f 3 ++ f 4 ++ f 5 ++ f 6 ++ f 7

/-- The 40-bit word `v 0 ‖ ... ‖ v 7` of eight 5-bit values (20_memory.md R37). -/
def groupWord (v : Nat → Group) : BitVec 40 := v 0 ++ v 1 ++ v 2 ++ v 3 ++ v 4 ++ v 5 ++ v 6 ++ v 7

/-- Group `k` of a 40-bit word, `W[39-5k : 35-5k]` (20_memory.md R36). -/
def groupOf (w : BitVec 40) (k : Nat) : Group := w.extractLsb' (35 - 5 * k) 5

/-! ### The groups of a byte chunk (R73) -/

/-- `G[0] = B[0][7:3]`. -/
def g0 (b0 : Byte) : Group := b0.extractLsb' 3 5
/-- `G[1] = B[0][2:0] ‖ B[1][7:6]`. -/
def g1 (b0 b1 : Byte) : Group := b0.extractLsb' 0 3 ++ b1.extractLsb' 6 2
/-- `G[2] = B[1][5:1]`. -/
def g2 (b1 : Byte) : Group := b1.extractLsb' 1 5
/-- `G[3] = B[1][0] ‖ B[2][7:4]`. -/
def g3 (b1 b2 : Byte) : Group := b1.extractLsb' 0 1 ++ b2.extractLsb' 4 4
/-- `G[4] = B[2][3:0] ‖ B[3][7]`. -/
def g4 (b2 b3 : Byte) : Group := b2.extractLsb' 0 4 ++ b3.extractLsb' 7 1
/-- `G[5] = B[3][6:2]`. -/
def g5 (b3 : Byte) : Group := b3.extractLsb' 2 5
/-- `G[6] = B[3][1:0] ‖ B[4][7:5]`. -/
def g6 (b3 b4 : Byte) : Group := b3.extractLsb' 0 2 ++ b4.extractLsb' 5 3
/-- `G[7] = B[4][4:0]`. -/
def g7 (b4 : Byte) : Group := b4.extractLsb' 0 5

/-! ### The bytes of a symbol chunk (R91) -/

/-- Byte 0, `V[0] ‖ V[1][4:2]`. -/
def y0 (v0 v1 : Group) : Byte := v0 ++ v1.extractLsb' 2 3
/-- Byte 1, `V[1][1:0] ‖ V[2] ‖ V[3][4]`. -/
def y1 (v1 v2 v3 : Group) : Byte := v1.extractLsb' 0 2 ++ v2 ++ v3.extractLsb' 4 1
/-- Byte 2, `V[3][3:0] ‖ V[4][4:1]`. -/
def y2 (v3 v4 : Group) : Byte := v3.extractLsb' 0 4 ++ v4.extractLsb' 1 4
/-- Byte 3, `V[4][0] ‖ V[5] ‖ V[6][4:3]`. -/
def y3 (v4 v5 v6 : Group) : Byte := v4.extractLsb' 0 1 ++ v5 ++ v6.extractLsb' 3 2
/-- Byte 4, `V[6][2:0] ‖ V[7]`. -/
def y4 (v6 v7 : Group) : Byte := v6.extractLsb' 0 3 ++ v7

/-! ### Counts -/

/-- `ENC_COUNT[LEN] = (8*LEN + 4) div 5`, the number of output symbols (40_encoder.md R72). -/
def encCount (len : Nat) : Nat := (8 * len + 4) / 5

/-- `DEC_COUNT[CNT] = (5*CNT) div 8`, the number of output bytes (41_decoder.md R90). -/
def decCount (cnt : Nat) : Nat := 5 * cnt / 8

/-! ### Symbol resolution (41_decoder.md R87, R88) -/

/-- The value of a symbol, `INV[s].VALUE`; read only of valid symbols (R87). -/
def valueOf (s : Sym) : Group := (inv s).value

/-- The lane of the first invalid symbol, lanes counted from `k` in ascending order (R88). -/
def firstInvalidFrom (k : Nat) : List Sym → Option Nat
  | [] => none
  | s :: rest => if (inv s).valid then firstInvalidFrom (k + 1) rest else some k

/-- The lane of the first invalid symbol of a chunk, if any is invalid (R88). -/
def firstInvalid (l : List Sym) : Option Nat := firstInvalidFrom 0 l

/-! ### Fields of the response words -/

/-- `ERsp.STATUS`, bits 69:68 (R55). -/
def eRspStatus (r : ERsp) : BitVec 2 := r.extractLsb' 68 2
/-- `ERsp.CNT`, bits 67:64 (R55). -/
def eRspCnt (r : ERsp) : BitVec 4 := r.extractLsb' 64 4
/-- `ERsp.SYM`, bits 63:0 (R55). -/
def eRspSym (r : ERsp) : BitVec 64 := r.extractLsb' 0 64
/-- The `ERsp` with the given fields (R55). -/
def eRspWord (status : BitVec 2) (cnt : BitVec 4) (sym : BitVec 64) : ERsp := status ++ cnt ++ sym

/-- `DRsp.STATUS`, bits 47:46 (R58). -/
def dRspStatus (r : DRsp) : BitVec 2 := r.extractLsb' 46 2
/-- `DRsp.ERRIDX`, bits 45:43 (R58). -/
def dRspErrIdx (r : DRsp) : BitVec 3 := r.extractLsb' 43 3
/-- `DRsp.LEN`, bits 42:40 (R58). -/
def dRspLen (r : DRsp) : BitVec 3 := r.extractLsb' 40 3
/-- `DRsp.DATA`, bits 39:0 (R58). -/
def dRspData (r : DRsp) : BitVec 40 := r.extractLsb' 0 40
/-- The `DRsp` with the given fields (R58). -/
def dRspWord (status : BitVec 2) (errIdx len : BitVec 3) (data : BitVec 40) : DRsp :=
  status ++ errIdx ++ len ++ data

end Sys2Proof.Machine
end

