-- ==== Sys2Proof/Machine/State.lean ====
section
/-! DEFINITION. The state of B32CORE (spec 10_state.md R13, R14, R33), what stands at its ports, the events that move
it, and the reasons a step can stop. -/

namespace Sys2Proof.Machine

/-- The two transfers of a unit (20_memory.md R35). -/
inductive Transfer where
  /-- `Accept(u, req)`: the unit takes the request that stands on its port (R38). -/
  | accept (u : UnitId)
  /-- `Deliver(u)`: the unit hands its oldest response to the host, which is ready to take it (R39). -/
  | deliver (u : UnitId)
  deriving DecidableEq, Repr

/-- A statement of a host program (30_encoding.md R69). -/
inductive HostStmt where
  /-- `enc: <request>` or `dec: <request>`: present it and hold it until accepted. -/
  | request (i : Instr)
  /-- `take enc` or `take dec`: wait for one response and take it. -/
  | take (u : UnitId)
  /-- `RESET`. -/
  | reset
  deriving DecidableEq, Repr

/-- Whether the host goes on with its program while a request of it stands on a port: R69 and R152 of
70_reset_and_hazards.md say it waits, programs P2 and P4 of 95_test_vectors.md go on. DESIGN CHOICE: both are moves of
the host (log 18). -/
inductive HostStyle where
  /-- The host goes on when no request of it is held on a port (R69 "hold until accepted", R152). -/
  | waiting
  /-- The host goes on to a take, a reset or a request for a free port while a request is held (P2, P4). -/
  | overlapping
  deriving DecidableEq, Repr

/-- What happens next: one move of the host, of a unit or of the reset input (00_scope.md R4). -/
inductive Event where
  /-- A host outside any program presents a request word; it stands on the word's port until accepted (20_memory.md
  R50). While the port holds an earlier request the host goes on holding that one. -/
  | present (w : PortWord)
  /-- The host's turn: the next statement of its program, or a wait (R69, log 18). -/
  | host (h : HostStyle)
  /-- A unit's turn to accept or to deliver (R38, R39). -/
  | transfer (t : Transfer)
  /-- The atomic `Reset()` (70_reset_and_hazards.md R143, R148), with the transfer that falls together with it, if
  any (R149, log 7). -/
  | reset (together : Option Transfer)
  /-- The reset input is asserted (R144, log 6). -/
  | assertReset
  /-- The reset input is released (R144, log 6). -/
  | releaseReset
  deriving DecidableEq, Repr

/-- The state of a B32CORE and its ports. `ALPHA` and `INV` are constants, no fields (R14, R20). -/
structure State where
  /-- `EQ`: responses of accepted ENC requests, oldest first (R14, R29). -/
  EQ : List ERsp
  /-- `DQ`: responses of accepted DEC requests, oldest first (R14, R29). -/
  DQ : List DRsp
  /-- The request the host holds on ENC's port, if any (20_memory.md R50, R52; log 1). -/
  encHeld : Option EReq
  /-- The request the host holds on DEC's port, if any (R50, R52; log 1). -/
  decHeld : Option DReq
  /-- What `Deliver(ENC)` has handed to the host, in the order taken (R39; log 1). -/
  encTaken : List ERsp
  /-- What `Deliver(DEC)` has handed to the host, in the order taken (R39; log 1). -/
  decTaken : List DRsp
  /-- The reset input is asserted (70_reset_and_hazards.md R143, R144; log 6). -/
  resetLine : Bool
  /-- The statements the host has still to run, the next one first (30_encoding.md R69; log 1). -/
  program : List HostStmt
  /-- Which event comes next: the order that R4 and R42 leave open, as data. The model's own field (log 2). -/
  schedule : List Event
  deriving DecidableEq, Repr

/-- Why the machine stops with a fault: a response word B32CORE cannot produce is met when a unit delivers it
(30_encoding.md R64, 60_exceptions.md R142, 93_implementation_defined.md U1, U2; log 8). Raised by a delivery, in
ENC's or DEC's turn or in the host's, and by no instruction. All four are safe: they err toward unprovable (R142). -/
inductive Fault where
  /-- `STATUS = 0b11` (U1). Raised by `deliver`; safe. -/
  | reservedStatus
  /-- `STATUS = 0b01` in an encoder response (U2). Raised by `deliver`; safe. -/
  | encInvalidSymbolStatus
  /-- `ERsp.CNT` in 1, 3, 6, 9..15 (U2). Raised by `deliver`; safe. -/
  | encImpossibleCount
  /-- `DRsp.LEN` in 6, 7 (U2). Raised by `deliver`; safe. -/
  | decImpossibleLength
  deriving DecidableEq, Repr

/-- Why an instruction has no meaning. -/
inductive Refusal where
  /-- An instruction without a meaning yet; raised by exec's refused arms, of which there is none. Safe. -/
  | notModelled (mnemonic : String)
  deriving DecidableEq, Repr

/-- The outcomes of a step or a meaning. -/
abbrev Result := Host.Outcome State Fault Refusal

/-- What the next event asks for: run an accepted request, or an outcome already settled. -/
inductive Action where
  | run (i : Instr) (s : State)
  | settled (o : Result)

/-- The state after reset (R33): both queues empty. The fields outside the block start empty (log 1, log 2: DESIGN
CHOICE) and the reset input is released (R144). -/
def State.reset : State where
  EQ := []
  DQ := []
  encHeld := none
  decHeld := none
  encTaken := []
  decTaken := []
  resetLine := false
  program := []
  schedule := []

end Sys2Proof.Machine
end

