-- ==== Sys2Proof/Machine/Flags.lean ====
section
/-! DEFINITION. B32CORE has no flags (spec 10_state.md R18); its only status is the `STATUS` field of a response
(60_exceptions.md R129). This file holds the status codes, the responses that carry them, and the check that a response
word is one B32CORE can produce (30_encoding.md R64). An error is a value, never a trap (R132): these operations stand
where another machine takes an exception. -/

namespace Sys2Proof.Machine

/-- `OK` (R129). -/
def statusOk : BitVec 2 := 0b00
/-- `INVALID_SYMBOL` (R129). -/
def statusInvalidSymbol : BitVec 2 := 0b01
/-- `ILLEGAL_REQUEST` (R129). -/
def statusIllegalRequest : BitVec 2 := 0b10
/-- The reserved code, never produced (R129, R64). -/
def statusReserved : BitVec 2 := 0b11

/-- The `OK` response of ENC with these groups' symbols: `CNT` is their number, lanes beyond it 0x00
(40_encoder.md R71, R75). -/
def encOk (gs : List Group) : ERsp :=
  eRspWord statusOk (BitVec.ofNat 4 gs.length)
    (symWord fun k => match gs[k]? with
      | some g => alpha g
      | none => 0x00)

/-- ENC's `ILLEGAL_REQUEST` response: every other field 0 (R130). -/
def encIllegal : ERsp := eRspWord statusIllegalRequest 0 0

/-- The `OK` response of DEC with these bytes: `LEN` is their number, lanes beyond it 0x00 (41_decoder.md R89, R93). -/
def decOk (bs : List Byte) : DRsp :=
  dRspWord statusOk 0 (BitVec.ofNat 3 bs.length) (byteWord fun i => bs.getD i 0x00)

/-- DEC's `INVALID_SYMBOL` response: the lane of the first invalid symbol and no byte (R94, R131). -/
def decInvalid (k : Nat) : DRsp := dRspWord statusInvalidSymbol (BitVec.ofNat 3 k) 0 0

/-- DEC's `ILLEGAL_REQUEST` response: every other field 0 (R130). -/
def decIllegal : DRsp := dRspWord statusIllegalRequest 0 0 0

/-- The response of a legal decoder form: `INVALID_SYMBOL` for the first invalid of its input symbols (R88), else `OK`
with the form's bytes. -/
def decAnswer (input : List Sym) (bytes : List Byte) : DRsp :=
  match firstInvalid input with
  | some k => decInvalid k
  | none => decOk bytes

/-- What is wrong with an encoder response, if B32CORE cannot produce it (R64). -/
def eRspFault (r : ERsp) : Option Fault :=
  if eRspStatus r = statusReserved then some .reservedStatus
  else if eRspStatus r = statusInvalidSymbol then some .encInvalidSymbolStatus
  else if (eRspCnt r).toNat ∈ [0, 2, 4, 5, 7, 8] then none
  else some .encImpossibleCount

/-- What is wrong with a decoder response, if B32CORE cannot produce it (R64). -/
def dRspFault (r : DRsp) : Option Fault :=
  if dRspStatus r = statusReserved then some .reservedStatus
  else if (dRspLen r).toNat ≤ 5 then none
  else some .decImpossibleLength

end Sys2Proof.Machine
end

