-- ==== Sys2Proof/Machine/Ops.lean ====
section
/-! DEFINITION. The named operations on the state: the ports and queues (spec 20_memory.md R38, R39, R50), reset
(70_reset_and_hazards.md R144, R148, R149), the host's turn (30_encoding.md R69) and the choice of what the next event
does. There is no exception to take
and none to return from (60_exceptions.md R132). -/

namespace Sys2Proof.Machine

/-! ### Single updates -/

/-- A response joins the end of `EQ` (R38). -/
def pushEQ (r : ERsp) (s : State) : State := { s with EQ := s.EQ ++ [r] }

/-- A response joins the end of `DQ` (R38). -/
def pushDQ (r : DRsp) (s : State) : State := { s with DQ := s.DQ ++ [r] }

/-- A request stands on ENC's port: "the host holds it on the port, unchanged" (R50). -/
def holdEnc (w : EReq) (s : State) : State := { s with encHeld := some w }

/-- A request stands on DEC's port (R50). -/
def holdDec (w : DReq) (s : State) : State := { s with decHeld := some w }

/-- No request stands on the unit's port. -/
def portFree (u : UnitId) (s : State) : Bool :=
  match u with
  | .enc => s.encHeld.isNone
  | .dec => s.decHeld.isNone

/-- Response-valid of ENC's port: deasserted exactly when `EQ` is empty (10_state.md R33). -/
def encRspValid (s : State) : Bool := !s.EQ.isEmpty

/-- Response-valid of DEC's port (10_state.md R33). -/
def decRspValid (s : State) : Bool := !s.DQ.isEmpty

/-! ### Accept -/

/-- ENC can accept: no reset asserted (R144) and fewer than `depth` responses queued (R38). -/
def encReady (depth : Nat) (s : State) : Bool := !s.resetLine && decide (s.EQ.length < depth)

/-- DEC can accept (R38, R144). -/
def decReady (depth : Nat) (s : State) : Bool := !s.resetLine && decide (s.DQ.length < depth)

/-- `Accept(ENC, w)` on a block of encoder depth `depth`, with the response `r` to `w`: the response is queued (R38),
or, when ENC cannot accept, the request stands on the port (R50). -/
def acceptEncAt (depth : Nat) (w : EReq) (r : ERsp) (s : State) : State :=
  if encReady depth s then pushEQ r s else holdEnc w s

/-- `Accept(DEC, w)` on a block of decoder depth `depth` (R38, R50). -/
def acceptDecAt (depth : Nat) (w : DReq) (r : DRsp) (s : State) : State :=
  if decReady depth s then pushDQ r s else holdDec w s

/-- The meaning of an encoder form: its word is accepted with its response, or held (R38, R50; log 5). -/
def acceptEnc (w : EReq) (r : ERsp) (s : State) : Result := .next (acceptEncAt Config.encDepth w r s)

/-- The meaning of a decoder form (R38, R50; log 5). -/
def acceptDec (w : DReq) (r : DRsp) (s : State) : Result := .next (acceptDecAt Config.decDepth w r s)

/-- The request on ENC's port leaves it to be tried; with none there, ENC's turn passes (R38). -/
def fetchEnc (s : State) : Action :=
  match s.encHeld with
  | none => .settled (.next s)
  | some w => .run (decodeWord (.enc w)) { s with encHeld := none }

/-- The request on DEC's port leaves it to be tried (R38). -/
def fetchDec (s : State) : Action :=
  match s.decHeld with
  | none => .settled (.next s)
  | some w => .run (decodeWord (.dec w)) { s with decHeld := none }

/-- A request stands on the unit's port and the unit can accept it (R38, R51). -/
def canAccept (u : UnitId) (s : State) : Bool :=
  !portFree u s && match u with
    | .enc => encReady Config.encDepth s
    | .dec => decReady Config.decDepth s

/-! ### Deliver -/

/-- `Deliver(ENC)` (R39): the oldest response goes to the host. No step while reset is asserted (R144) or the queue is
empty (the host waits); a response B32CORE cannot produce faults (30_encoding.md R64). -/
def deliverEnc (s : State) : Result :=
  if s.resetLine then .next s
  else
    match s.EQ with
    | [] => .next s
    | r :: rs =>
      match eRspFault r with
      | some f => .fault f
      | none => .next { s with EQ := rs, encTaken := s.encTaken ++ [r] }

/-- `Deliver(DEC)` (R39). -/
def deliverDec (s : State) : Result :=
  if s.resetLine then .next s
  else
    match s.DQ with
    | [] => .next s
    | r :: rs =>
      match dRspFault r with
      | some f => .fault f
      | none => .next { s with DQ := rs, decTaken := s.decTaken ++ [r] }

/-- `Deliver(u)` (R39). -/
def deliver (u : UnitId) (s : State) : Result :=
  match u with
  | .enc => deliverEnc s
  | .dec => deliverDec s

/-- A response of the unit is offered, and no reset holds it back (R39, R144). -/
def canDeliver (u : UnitId) (s : State) : Bool :=
  !s.resetLine && match u with
    | .enc => encRspValid s
    | .dec => decRspValid s

/-! ### Reset -/

/-- `Reset()`: both queues are discarded; held requests are not accepted by it and stay held (R148). -/
def resetBlock (s : State) : State := { s with EQ := [], DQ := [] }

/-- Reset is asserted: it acts as `Reset()` does, and no transfer happens until it is released (R144; log 6). -/
def assertReset (s : State) : State := { resetBlock s with resetLine := true }

/-- "When reset is released both units are ready, with empty queues" (R144; log 6). -/
def releaseReset (s : State) : State := { resetBlock s with resetLine := false }

/-! ### The host -/

/-- The host presents a request on a free port. A port holds one word: while an earlier one stands there, the host goes
on holding it and nothing changes (R50, R52). -/
def present (w : PortWord) (s : State) : State :=
  if portFree w.unit s then
    match w with
    | .enc w => holdEnc w s
    | .dec w => holdDec w s
  else s

/-- The host is free to go on with its program: a waiting host once no request of it is held, an overlapping one always
(30_encoding.md R69, 70_reset_and_hazards.md R152; log 18). -/
def hostFree (h : HostStyle) (s : State) : Bool :=
  match h with
  | .waiting => portFree .enc s && portFree .dec s
  | .overlapping => true

/-- The statement can run now: a request once its port is free, a take once a response is offered (R50, R39). -/
def stmtReady (st : HostStmt) (s : State) : Bool :=
  match st with
  | .request i => portFree (encode i).unit s
  | .take u => canDeliver u s
  | .reset => true

/-- The statement the host's turn runs and those after it; none when the host waits or its program has ended. -/
def hostNext (h : HostStyle) (s : State) : Option (HostStmt × List HostStmt) :=
  match s.program with
  | [] => none
  | st :: rest => if hostFree h s && stmtReady st s then some (st, rest) else none

/-- What a statement of the host does (R69). -/
def runStmt (st : HostStmt) (s : State) : Result :=
  match st with
  | .request i => .next (present (encode i) s)
  | .take u => deliver u s
  | .reset => .next (resetBlock s)

/-- The host's turn: its next statement, or a wait that changes nothing (R69, R39 "otherwise no step: the host waits"). -/
def hostTurn (h : HostStyle) (s : State) : Result :=
  match hostNext h s with
  | none => .next s
  | some (st, rest) => runStmt st { s with program := rest }

/-! ### What the next event does -/

/-- One event. A reset that falls together with a transfer wins over it: the request stays held and the response is
discarded (R149). -/
def actEvent (e : Event) (s : State) : Action :=
  match e with
  | .present w => .settled (.next (present w s))
  | .host h => .settled (hostTurn h s)
  | .transfer (.accept .enc) => fetchEnc s
  | .transfer (.accept .dec) => fetchDec s
  | .transfer (.deliver u) => .settled (deliver u s)
  | .reset _ => .settled (.next (resetBlock s))
  | .assertReset => .settled (.next (assertReset s))
  | .releaseReset => .settled (.next (releaseReset s))

/-- Who moves when the schedule has ended: a unit that can accept, else the host if its program can go on, else nobody.
So no unit with room leaves a held request for ever, and no offered response waits for ever on a host that stands at a
take: the weak fairness of R51. The order of the movers is a DESIGN CHOICE (log 3). -/
def fairEvent (s : State) : Option Event :=
  if canAccept .enc s then some (.transfer (.accept .enc))
  else if canAccept .dec s then some (.transfer (.accept .dec))
  else if (hostNext .waiting s).isSome then some (.host .waiting)
  else none

/-- The event the next step performs: the schedule's, else the fair choice. -/
def State.nextEvent (s : State) : Option Event :=
  match s.schedule with
  | [] => fairEvent s
  | e :: _ => some e

/-- The next event is performed and leaves the schedule. Where nobody can move, the block waits for requests
(70_reset_and_hazards.md R147; log 3). -/
def act (s : State) : Action :=
  match s.nextEvent with
  | none => .settled (.next s)
  | some e => actEvent e { s with schedule := s.schedule.tail }

/-! ### What an event is about to do, in the terms of claims -/

/-- The request that comes to stand on a port by this event. -/
def presentedBy (e : Event) (s : State) : Option PortWord :=
  match e with
  | .present w => if portFree w.unit s then some w else none
  | .host h =>
    match hostNext h s with
    | some (.request i, _) => some (encode i)
    | _ => none
  | _ => none

/-- The unit that this event asks to deliver. -/
def deliversBy (e : Event) (s : State) : Option UnitId :=
  match e with
  | .transfer (.deliver u) => some u
  | .host h =>
    match hostNext h s with
    | some (.take u, _) => some u
    | _ => none
  | _ => none

/-- The event is a reset of some kind, or a `RESET` of the host's program. -/
def resetsBy (e : Event) (s : State) : Bool :=
  match e with
  | .present _ => false
  | .transfer _ => false
  | .host h =>
    match hostNext h s with
    | some (.reset, _) => true
    | _ => false
  | .reset _ => true
  | .assertReset => true
  | .releaseReset => true

/-- The table word `w` is put on its port, and its acceptance is the very next event (log 9, log 10). -/
def placeWord (s : State) (u : UnitId) (w : Nat) : State :=
  match u with
  | .enc =>
    { s with
      encHeld := some (BitVec.ofNat 43 w)
      schedule := .transfer (.accept .enc) :: s.schedule }
  | .dec =>
    { s with
      decHeld := some (BitVec.ofNat 68 w)
      schedule := .transfer (.accept .dec) :: s.schedule }

end Sys2Proof.Machine
end

