-- ==== Sys2Proof/Machine/Decoder.lean ====
section
/-! DEFINITION. The decoder unit: the response function `DecChunk` (spec 41_decoder.md R89) and the meaning of each
decoder form (R99-R114). A meaning queues the response its own rule gives, or holds the request (20_memory.md R38, R50);
that the responses are `DecChunk`'s is stated in Certificates/Slice0/Obligations.lean. -/

namespace Sys2Proof.Machine

/-- The input symbols of a request: lanes `0..CNT-1`, in lane order (30_encoding.md R67). -/
def decInput (w : DReq) : List Sym := (List.range (dReqCnt w).toNat).map (lane8 (dReqSym w))

/-- The value of lane `k`: the symbol's for `k < CNT`, else 0 whatever the host drove (R89, R92). -/
def decValue (w : DReq) (k : Nat) : Group :=
  if k < (dReqCnt w).toNat then valueOf (lane8 (dReqSym w) k) else 0

/-- `DecChunk(req)`, the response to an accepted decoder request (R89). -/
def decChunk (w : DReq) : DRsp :=
  let cnt := (dReqCnt w).toNat
  if 9 ≤ cnt then dRspWord statusIllegalRequest 0 0 0
  else
    match firstInvalid (decInput w) with
    | some k => dRspWord statusInvalidSymbol (BitVec.ofNat 3 k) 0 0
    | none =>
      let chunk := groupWord (decValue w)
      let m := decCount cnt
      dRspWord statusOk 0 (BitVec.ofNat 3 m)
        (byteWord fun i => if i < m then blane chunk i else 0x00)

/-- `DEC0`: the empty chunk (R99). -/
def execDec0 (dontCare : BitVec 64) (s : State) : Result :=
  acceptDec (dReqWord 0b0000 dontCare) (decAnswer [] []) s

/-- `DEC1`: one symbol, validated, and no byte (R100). -/
def execDec1 (s0 : Sym) (dontCare : BitVec 56) (s : State) : Result :=
  acceptDec (dReqWord 0b0001 (s0 ++ dontCare))
    (decAnswer [s0]
      []) s

/-- `DEC2`: two symbols to one byte (R101). -/
def execDec2 (s0 s1 : Sym) (dontCare : BitVec 48) (s : State) : Result :=
  acceptDec (dReqWord 0b0010 (s0 ++ s1 ++ dontCare))
    (decAnswer [s0, s1]
      [y0 (valueOf s0) (valueOf s1)]) s

/-- `DEC3`: three symbols to one byte; the third is validated and discarded (R102). -/
def execDec3 (s0 s1 s2 : Sym) (dontCare : BitVec 40) (s : State) : Result :=
  acceptDec (dReqWord 0b0011 (s0 ++ s1 ++ s2 ++ dontCare))
    (decAnswer [s0, s1, s2]
      [y0 (valueOf s0) (valueOf s1)]) s

/-- `DEC4`: four symbols to two bytes (R103). -/
def execDec4 (s0 s1 s2 s3 : Sym) (dontCare : BitVec 32) (s : State) : Result :=
  acceptDec (dReqWord 0b0100 (s0 ++ s1 ++ s2 ++ s3 ++ dontCare))
    (decAnswer [s0, s1, s2, s3]
      [y0 (valueOf s0) (valueOf s1),
       y1 (valueOf s1) (valueOf s2) (valueOf s3)]) s

/-- `DEC5`: five symbols to three bytes (R104). -/
def execDec5 (s0 s1 s2 s3 s4 : Sym) (dontCare : BitVec 24) (s : State) : Result :=
  acceptDec (dReqWord 0b0101 (s0 ++ s1 ++ s2 ++ s3 ++ s4 ++ dontCare))
    (decAnswer [s0, s1, s2, s3, s4]
      [y0 (valueOf s0) (valueOf s1),
       y1 (valueOf s1) (valueOf s2) (valueOf s3),
       y2 (valueOf s3) (valueOf s4)]) s

/-- `DEC6`: six symbols to three bytes; the sixth is validated and discarded (R105). -/
def execDec6 (s0 s1 s2 s3 s4 s5 : Sym) (dontCare : BitVec 16) (s : State) : Result :=
  acceptDec (dReqWord 0b0110 (s0 ++ s1 ++ s2 ++ s3 ++ s4 ++ s5 ++ dontCare))
    (decAnswer [s0, s1, s2, s3, s4, s5]
      [y0 (valueOf s0) (valueOf s1),
       y1 (valueOf s1) (valueOf s2) (valueOf s3),
       y2 (valueOf s3) (valueOf s4)]) s

/-- `DEC7`: seven symbols to four bytes (R106). -/
def execDec7 (s0 s1 s2 s3 s4 s5 s6 : Sym) (dontCare : BitVec 8) (s : State) : Result :=
  acceptDec (dReqWord 0b0111 (s0 ++ s1 ++ s2 ++ s3 ++ s4 ++ s5 ++ s6 ++ dontCare))
    (decAnswer [s0, s1, s2, s3, s4, s5, s6]
      [y0 (valueOf s0) (valueOf s1),
       y1 (valueOf s1) (valueOf s2) (valueOf s3),
       y2 (valueOf s3) (valueOf s4),
       y3 (valueOf s4) (valueOf s5) (valueOf s6)]) s

/-- `DEC8`: eight symbols to five bytes (R107). -/
def execDec8 (s0 s1 s2 s3 s4 s5 s6 s7 : Sym) (s : State) : Result :=
  acceptDec (dReqWord 0b1000 (s0 ++ s1 ++ s2 ++ s3 ++ s4 ++ s5 ++ s6 ++ s7))
    (decAnswer [s0, s1, s2, s3, s4, s5, s6, s7]
      [y0 (valueOf s0) (valueOf s1),
       y1 (valueOf s1) (valueOf s2) (valueOf s3),
       y2 (valueOf s3) (valueOf s4),
       y3 (valueOf s4) (valueOf s5) (valueOf s6),
       y4 (valueOf s6) (valueOf s7)]) s

/-- `DEC.ILL9`: answered `ILLEGAL_REQUEST`, `SYM` not examined (R108). -/
def execDecIll9 (sym : BitVec 64) (s : State) : Result :=
  acceptDec (dReqWord 0b1001 sym) decIllegal s

/-- `DEC.ILL10`: answered `ILLEGAL_REQUEST`, `SYM` not examined (R109). -/
def execDecIll10 (sym : BitVec 64) (s : State) : Result :=
  acceptDec (dReqWord 0b1010 sym) decIllegal s

/-- `DEC.ILL11`: answered `ILLEGAL_REQUEST`, `SYM` not examined (R110). -/
def execDecIll11 (sym : BitVec 64) (s : State) : Result :=
  acceptDec (dReqWord 0b1011 sym) decIllegal s

/-- `DEC.ILL12`: answered `ILLEGAL_REQUEST`, `SYM` not examined (R111). -/
def execDecIll12 (sym : BitVec 64) (s : State) : Result :=
  acceptDec (dReqWord 0b1100 sym) decIllegal s

/-- `DEC.ILL13`: answered `ILLEGAL_REQUEST`, `SYM` not examined (R112). -/
def execDecIll13 (sym : BitVec 64) (s : State) : Result :=
  acceptDec (dReqWord 0b1101 sym) decIllegal s

/-- `DEC.ILL14`: answered `ILLEGAL_REQUEST`, `SYM` not examined (R113). -/
def execDecIll14 (sym : BitVec 64) (s : State) : Result :=
  acceptDec (dReqWord 0b1110 sym) decIllegal s

/-- `DEC.ILL15`: answered `ILLEGAL_REQUEST`, `SYM` not examined (R114). -/
def execDecIll15 (sym : BitVec 64) (s : State) : Result :=
  acceptDec (dReqWord 0b1111 sym) decIllegal s

end Sys2Proof.Machine
end

