-- ==== Sys2Proof/Machine/Encoder.lean ====
section
/-! DEFINITION. The encoder unit: the response function `EncChunk` (spec 40_encoder.md R71) and the meaning of each
encoder form (R77-R84). A meaning queues the response its own rule gives, or holds the request (20_memory.md R38, R50);
that the responses are `EncChunk`'s is stated in Certificates/Slice0/Obligations.lean. -/

namespace Sys2Proof.Machine

/-- Chunk byte `i` of a request: lane `i` for `i < LEN`, else 0x00 whatever the host drove (R71, R74). -/
def encByte (w : EReq) (i : Nat) : Byte := if i < (eReqLen w).toNat then blane (eReqData w) i else 0x00

/-- `EncChunk(req)`, the response to an accepted encoder request (R71). -/
def encChunk (w : EReq) : ERsp :=
  let len := (eReqLen w).toNat
  if 6 ≤ len then eRspWord statusIllegalRequest 0 0
  else
    let chunk := byteWord (encByte w)
    let n := encCount len
    eRspWord statusOk (BitVec.ofNat 4 n)
      (symWord fun k => if k < n then alpha (groupOf chunk k) else 0x00)

/-- `ENC0`: the empty chunk (R77). -/
def execEnc0 (dontCare : BitVec 40) (s : State) : Result :=
  acceptEnc (eReqWord 0b000 dontCare) (encOk []) s

/-- `ENC1`: one byte to two symbols; the missing byte is 0x00 (R78). -/
def execEnc1 (b0 : Byte) (dontCare : BitVec 32) (s : State) : Result :=
  acceptEnc (eReqWord 0b001 (b0 ++ dontCare)) (encOk [g0 b0, g1 b0 0x00]) s

/-- `ENC2`: two bytes to four symbols (R79). -/
def execEnc2 (b0 b1 : Byte) (dontCare : BitVec 24) (s : State) : Result :=
  acceptEnc (eReqWord 0b010 (b0 ++ b1 ++ dontCare)) (encOk [g0 b0, g1 b0 b1, g2 b1, g3 b1 0x00]) s

/-- `ENC3`: three bytes to five symbols (R80). -/
def execEnc3 (b0 b1 b2 : Byte) (dontCare : BitVec 16) (s : State) : Result :=
  acceptEnc (eReqWord 0b011 (b0 ++ b1 ++ b2 ++ dontCare))
    (encOk [g0 b0, g1 b0 b1, g2 b1, g3 b1 b2, g4 b2 0x00]) s

/-- `ENC4`: four bytes to seven symbols (R81). -/
def execEnc4 (b0 b1 b2 b3 : Byte) (dontCare : BitVec 8) (s : State) : Result :=
  acceptEnc (eReqWord 0b100 (b0 ++ b1 ++ b2 ++ b3 ++ dontCare))
    (encOk [g0 b0, g1 b0 b1, g2 b1, g3 b1 b2, g4 b2 b3, g5 b3, g6 b3 0x00]) s

/-- `ENC5`: five bytes to eight symbols (R82). -/
def execEnc5 (b0 b1 b2 b3 b4 : Byte) (s : State) : Result :=
  acceptEnc (eReqWord 0b101 (b0 ++ b1 ++ b2 ++ b3 ++ b4))
    (encOk [g0 b0, g1 b0 b1, g2 b1, g3 b1 b2, g4 b2 b3, g5 b3, g6 b3 b4, g7 b4]) s

/-- `ENC.ILL6`: answered `ILLEGAL_REQUEST`, `DATA` not examined (R83). -/
def execEncIll6 (data : BitVec 40) (s : State) : Result :=
  acceptEnc (eReqWord 0b110 data) encIllegal s

/-- `ENC.ILL7`: answered `ILLEGAL_REQUEST`, `DATA` not examined (R84). -/
def execEncIll7 (data : BitVec 40) (s : State) : Result :=
  acceptEnc (eReqWord 0b111 data) encIllegal s

end Sys2Proof.Machine
end

