-- ==== Sys2Proof/Machine/Dispatch.lean ====
section
/-! DEFINITION. What each request form does: one arm per constructor of Instr (spec 30_encoding.md R59, R60). -/

namespace Sys2Proof.Machine

def exec (i : Instr) (s : State) : Host.Outcome State Fault Refusal :=
  match i with
  | .enc0 x => Sys2Proof.Machine.execEnc0 x s
  | .enc1 b0 x => Sys2Proof.Machine.execEnc1 b0 x s
  | .enc2 b0 b1 x => Sys2Proof.Machine.execEnc2 b0 b1 x s
  | .enc3 b0 b1 b2 x => Sys2Proof.Machine.execEnc3 b0 b1 b2 x s
  | .enc4 b0 b1 b2 b3 x => Sys2Proof.Machine.execEnc4 b0 b1 b2 b3 x s
  | .enc5 b0 b1 b2 b3 b4 => Sys2Proof.Machine.execEnc5 b0 b1 b2 b3 b4 s
  | .encIll6 d => Sys2Proof.Machine.execEncIll6 d s
  | .encIll7 d => Sys2Proof.Machine.execEncIll7 d s
  | .dec0 x => Sys2Proof.Machine.execDec0 x s
  | .dec1 s0 x => Sys2Proof.Machine.execDec1 s0 x s
  | .dec2 s0 s1 x => Sys2Proof.Machine.execDec2 s0 s1 x s
  | .dec3 s0 s1 s2 x => Sys2Proof.Machine.execDec3 s0 s1 s2 x s
  | .dec4 s0 s1 s2 s3 x => Sys2Proof.Machine.execDec4 s0 s1 s2 s3 x s
  | .dec5 s0 s1 s2 s3 s4 x => Sys2Proof.Machine.execDec5 s0 s1 s2 s3 s4 x s
  | .dec6 s0 s1 s2 s3 s4 s5 x => Sys2Proof.Machine.execDec6 s0 s1 s2 s3 s4 s5 x s
  | .dec7 s0 s1 s2 s3 s4 s5 s6 x => Sys2Proof.Machine.execDec7 s0 s1 s2 s3 s4 s5 s6 x s
  | .dec8 s0 s1 s2 s3 s4 s5 s6 s7 => Sys2Proof.Machine.execDec8 s0 s1 s2 s3 s4 s5 s6 s7 s
  | .decIll9 y => Sys2Proof.Machine.execDecIll9 y s
  | .decIll10 y => Sys2Proof.Machine.execDecIll10 y s
  | .decIll11 y => Sys2Proof.Machine.execDecIll11 y s
  | .decIll12 y => Sys2Proof.Machine.execDecIll12 y s
  | .decIll13 y => Sys2Proof.Machine.execDecIll13 y s
  | .decIll14 y => Sys2Proof.Machine.execDecIll14 y s
  | .decIll15 y => Sys2Proof.Machine.execDecIll15 y s

end Sys2Proof.Machine
end

