-- ==== Sys2Proof/Machine/Step.lean ====
section
/-! DEFINITION. One step of the block and its ports: the next event (spec 00_scope.md R4, R10). -/

namespace Sys2Proof.Machine

/-- One step: what the next event asks for; an accepted request runs by `exec`. -/
def step (s : State) : Host.Outcome State Fault Refusal :=
  match act s with
  | .run i t => exec i t
  | .settled o => o

/-- `s` with the table word `w` of `nbits` bits standing where the next step takes it from: on its port,
with its acceptance scheduled next (log 9, log 10). -/
def State.withFetchWord (s : State) (nbits w : Nat) : State := placeWord s (tablePort nbits) w

end Sys2Proof.Machine
end

