-- ==== Sys2Proof/Machine/Message.lean ====
section
/-! DEFINITION. Whole messages: the functions `encode` and `decode` (spec 42_message.md R117, R119) in chunk form and in
bit-string form, and the pseudo-instructions `ENCODE` and `DECODE`
(42_message.md R121-R124). The host is outside the block; it chunks a message, since a unit keeps no message state
(10_state.md R16). -/

namespace Sys2Proof.Machine

/-! ### Chunks -/

/-- The full chunks of `n` elements in order, then the short one if any is left (R117, R119, R121, R123). -/
def chunks {α : Type} (n : Nat) (l : List α) : List (List α) :=
  let q := l.length / n
  let r := l.length % n
  (List.range q).map (fun j => (l.drop (n * j)).take n) ++ if 0 < r then [l.drop (n * q)] else []

/-- The request of a byte chunk: `ENC<r>` with `r` its length, lanes beyond it 0x00 (30_encoding.md R68). -/
def eReqOf (c : List Byte) : EReq := eReqWord (BitVec.ofNat 3 c.length) (byteWord fun i => c.getD i 0x00)

/-- The request of a symbol chunk: `DEC<c>`, lanes beyond its length 0x00 (30_encoding.md R68). -/
def dReqOf (c : List Sym) : DReq := dReqWord (BitVec.ofNat 4 c.length) (symWord fun k => c.getD k 0x00)

/-- `syms(rsp)`: the symbol lanes below `CNT` (R117; a host reads no others, 70_reset_and_hazards.md R154). -/
def symsOf (r : ERsp) : List Sym := (List.range (eRspCnt r).toNat).map (lane8 (eRspSym r))

/-- `bytes(rsp)`: the byte lanes below `LEN` (R119, R154). -/
def bytesOf (r : DRsp) : List Byte := (List.range (dRspLen r).toNat).map (blane (dRspData r))

/-- The requests of `ENCODE b`, in order (R121). -/
def encodeRequests (b : List Byte) : List EReq := (chunks Config.chunkBytes b).map eReqOf

/-- The requests of `DECODE s`, in order (R123). -/
def decodeRequests (s : List Sym) : List DReq := (chunks Config.chunkSyms s).map dReqOf

/-! ### The document's functions -/

/-- `encode(b)` (R117). -/
def encodeMessage (b : List Byte) : List Sym := (encodeRequests b).flatMap fun w => symsOf (encChunk w)

/-- `decode(s)` (R119): none when some symbol is invalid. -/
def decodeMessage (s : List Sym) : Option (List Byte) :=
  match firstInvalid s with
  | some _ => none
  | none => some ((decodeRequests s).flatMap fun w => bytesOf (decChunk w))

/-- The bits of a word, the most significant first (00_scope.md R6). -/
def bitsOf {n : Nat} (v : BitVec n) : List Bool := (List.range n).map v.getMsbD

/-- The number whose bits these are, the first the most significant. -/
def ofBits (l : List Bool) : Nat := l.foldl (fun a b => 2 * a + b.toNat) 0

/-- `encode(b)` in bit-string form: `P` is the bits of `b` and zero bits up to a multiple of 5; symbol `k` is
`ALPHA[P[5k .. 5k+5)]` (R117). -/
def encodeBits (b : List Byte) : List Sym :=
  let n := b.length
  let count := (8 * n + 4) / 5
  let p := b.flatMap bitsOf ++ List.replicate (5 * count - 8 * n) false
  (List.range count).map fun k => alpha (BitVec.ofNat 5 (ofBits ((p.drop (5 * k)).take 5)))

/-- `decode(s)` in bit-string form: `Q` is the values' bits; byte `i` is `Q[8i .. 8i+8)` for `i < floor(5n/8)` (R119). -/
def decodeBits (s : List Sym) : Option (List Byte) :=
  if s.all fun c => (inv c).valid then
    let q := s.flatMap fun c => bitsOf (valueOf c)
    some ((List.range (5 * s.length / 8)).map fun i => BitVec.ofNat 8 (ofBits ((q.drop (8 * i)).take 8)))
  else none

/-- The strings the encoder can produce, as R128 describes them: symbols of the alphabet, a length not 1, 3 or 6 modulo
8, and discarded bits of the final chunk zero. -/
def canonicalText (s : List Sym) : Bool :=
  s.all (fun c => alphabet.contains c) && !([1, 3, 6].contains (s.length % 8)) &&
    ((s.flatMap fun c => bitsOf (valueOf c)).drop (8 * (5 * s.length / 8))).all (!·)

/-! ### The host's programs -/

/-- `ENCODE b` with one request outstanding at a time, which suits every depth (42_message.md R121,
70_reset_and_hazards.md R152). The spec leaves open how takes and requests are interleaved; this order is the model's
choice. DESIGN CHOICE (log 19). -/
def encodeProgram (b : List Byte) : List HostStmt :=
  (encodeRequests b).flatMap fun w => [.request (decodeEReq w), .take .enc]

/-- `DECODE s` with one request outstanding at a time (42_message.md R123, R152). After the first INVALID_SYMBOL the host
"may stop presenting the message's remaining chunks" (R124); this program does not stop and presents and takes every
chunk, which is the model's choice. DESIGN CHOICE (log 19). -/
def decodeProgram (s : List Sym) : List HostStmt :=
  (decodeRequests s).flatMap fun w => [.request (decodeDReq w), .take .dec]

/-- The result of `ENCODE` from the responses taken (R122). -/
def encodeResult (taken : List ERsp) : List Sym := taken.flatMap symsOf

/-- The result of `DECODE` from the responses taken: none when one is not `OK`, so nothing of the bytes taken before is
kept (R124, 70_reset_and_hazards.md R156). -/
def decodeResult (taken : List DRsp) : Option (List Byte) :=
  if taken.all fun r => dRspStatus r = statusOk then some (taken.flatMap bytesOf) else none

/-- The message position of the first invalid symbol, from chunk `j` on: `8j + ERRIDX` of the first failing chunk
(R124). -/
def errorPositionFrom (j : Nat) : List DRsp → Option Nat
  | [] => none
  | r :: rest =>
    if dRspStatus r = statusOk then errorPositionFrom (j + 1) rest
    else some (8 * j + (dRspErrIdx r).toNat)

/-- The message position of the first invalid symbol, from the responses taken (R124). -/
def errorPosition (taken : List DRsp) : Option Nat := errorPositionFrom 0 taken

end Sys2Proof.Machine
end

