-- ==== Sys2Proof/Machine/Assembler.lean ====
section
/-! DEFINITION. The text of requests, responses and host statements (spec 30_encoding.md R68-R70, decision D23): reading
a source line and printing a listing line. Text is a list of characters; one space stands where the syntax shows one
(log 15). -/

namespace Sys2Proof.Machine

abbrev Text := List Char

/-! ### Reading -/

/-- What follows a prefix. -/
def after : Text → Text → Option Text
  | [], t => some t
  | _ :: _, [] => none
  | p :: ps, c :: cs => if p = c then after ps cs else none

/-- The value of a hexadecimal digit, in either case. -/
def hexDigit? (c : Char) : Option Nat :=
  let n := c.toNat
  if 0x30 ≤ n ∧ n ≤ 0x39 then some (n - 0x30)
  else if 0x41 ≤ n ∧ n ≤ 0x46 then some (n - 0x37)
  else if 0x61 ≤ n ∧ n ≤ 0x66 then some (n - 0x57)
  else none

/-- The number that exactly `n` hexadecimal digits spell, nothing following, `acc` standing before them. -/
def hexNumberFrom (acc : Nat) : Nat → Text → Option Nat
  | 0, [] => some acc
  | 0, _ :: _ => none
  | _ + 1, [] => none
  | n + 1, c :: cs =>
    match hexDigit? c with
    | some d => hexNumberFrom (16 * acc + d) n cs
    | none => none

/-- `0x` and exactly `n` hexadecimal digits, to the end of the line. -/
def rawNumber (n : Nat) (t : Text) : Option Nat :=
  match after "0x".toList t with
  | some ds => hexNumberFrom 0 n ds
  | none => none

/-- The codes after the first of a bracketed list: `, 0xHH` each, then `]` at the end of the line. -/
def codesTail : Text → Option (List (BitVec 8))
  | [']'] => some []
  | ',' :: ' ' :: '0' :: 'x' :: h :: l :: rest =>
    match hexNumberFrom 0 2 [h, l], codesTail rest with
    | some n, some ns => some (BitVec.ofNat 8 n :: ns)
    | _, _ => none
  | _ => none

/-- A bracketed list of codes, `[]` or `[0xHH, 0xHH, ...]`, to the end of the line. -/
def codes : Text → Option (List (BitVec 8))
  | ['[', ']'] => some []
  | '[' :: '0' :: 'x' :: h :: l :: rest =>
    match hexNumberFrom 0 2 [h, l], codesTail rest with
    | some n, some ns => some (BitVec.ofNat 8 n :: ns)
    | _, _ => none
  | _ => none

/-- The characters before the closing quote, which ends the line; each must have an ASCII code. -/
def quotedBody : Text → Option (List Sym)
  | [] => none
  | [c] => if c = '"' then some [] else none
  | c :: cs =>
    if c.toNat < 0x80 then
      match quotedBody cs with
      | some ss => some (BitVec.ofNat 8 c.toNat :: ss)
      | none => none
    else none

/-- A quoted text, to the end of the line. -/
def quoted : Text → Option (List Sym)
  | [] => none
  | c :: cs => if c = '"' then quotedBody cs else none

/-- The payload of `ENC<r>` after its mnemonic: ` [..]` with `r` bytes, or `.raw 0x<10 hex digits>` (R68). -/
def encOperand (r : Nat) (t : Text) : Option (BitVec 40) :=
  match after ".raw ".toList t with
  | some raw => (rawNumber 10 raw).map (BitVec.ofNat 40)
  | none =>
    match after " ".toList t with
    | none => none
    | some list =>
      match codes list with
      | some bs => if bs.length = r then some (byteWord fun i => bs.getD i 0x00) else none
      | none => none

/-- The payload of `DEC<c>` after its mnemonic: a quoted text or a list of codes with `c` symbols, or
`.raw 0x<16 hex digits>` (R68). -/
def decOperand (c : Nat) (t : Text) : Option (BitVec 64) :=
  match after ".raw ".toList t with
  | some raw => (rawNumber 16 raw).map (BitVec.ofNat 64)
  | none =>
    match after " ".toList t with
    | none => none
    | some body =>
      match (quoted body).or (codes body) with
      | some ss => if ss.length = c then some (symWord fun k => ss.getD k 0x00) else none
      | none => none

/-- The operand of an illegal form: a space and `0x` with `digits` hexadecimal digits (R68). -/
def illOperand (digits : Nat) (t : Text) : Option Nat :=
  match after " ".toList t with
  | some raw => rawNumber digits raw
  | none => none

/-- The mnemonics of the encoder forms with their `LEN` (R68). -/
def encNames : List (Text × Nat) :=
  [("ENC0".toList, 0), ("ENC1".toList, 1), ("ENC2".toList, 2), ("ENC3".toList, 3), ("ENC4".toList, 4),
   ("ENC5".toList, 5), ("ENC.ILL6".toList, 6), ("ENC.ILL7".toList, 7)]

/-- The mnemonics of the decoder forms with their `CNT` (R68); no one is a prefix of a later one. -/
def decNames : List (Text × Nat) :=
  [("DEC0".toList, 0), ("DEC1".toList, 1), ("DEC2".toList, 2), ("DEC3".toList, 3), ("DEC4".toList, 4),
   ("DEC5".toList, 5), ("DEC6".toList, 6), ("DEC7".toList, 7), ("DEC8".toList, 8), ("DEC.ILL9".toList, 9),
   ("DEC.ILL10".toList, 10), ("DEC.ILL11".toList, 11), ("DEC.ILL12".toList, 12), ("DEC.ILL13".toList, 13),
   ("DEC.ILL14".toList, 14), ("DEC.ILL15".toList, 15)]

/-- The first name of a list that the text begins with, its number, and what follows it. -/
def findName : List (Text × Nat) → Text → Option (Nat × Text)
  | [], _ => none
  | (name, n) :: rest, t =>
    match after name t with
    | some u => some (n, u)
    | none => findName rest t

/-- The encoder request a line spells (R68). -/
def readEncRequest (t : Text) : Option EReq :=
  match findName encNames t with
  | none => none
  | some (n, u) =>
    if n ≤ 5 then (encOperand n u).map (eReqWord (BitVec.ofNat 3 n))
    else (illOperand 10 u).map fun d => eReqWord (BitVec.ofNat 3 n) (BitVec.ofNat 40 d)

/-- The decoder request a line spells (R68). -/
def readDecRequest (t : Text) : Option DReq :=
  match findName decNames t with
  | none => none
  | some (n, u) =>
    if n ≤ 8 then (decOperand n u).map (dReqWord (BitVec.ofNat 4 n))
    else (illOperand 16 u).map fun y => dReqWord (BitVec.ofNat 4 n) (BitVec.ofNat 64 y)

/-- The instruction a request line spells (R68). -/
def readRequest (t : Text) : Option Instr :=
  match readEncRequest t with
  | some w => some (decodeEReq w)
  | none => (readDecRequest t).map decodeDReq

/-- The host statements a source line stands for (R69); a pseudo-instruction stands for its expansion (R70, R121,
R123). -/
def readLine (t : Text) : Option (List HostStmt) :=
  if t = "take enc".toList then some [.take .enc]
  else if t = "take dec".toList then some [.take .dec]
  else if t = "RESET".toList then some [.reset]
  else
    match after "enc: ".toList t with
    | some u => (readEncRequest u).map fun w => [.request (decodeEReq w)]
    | none =>
      match after "dec: ".toList t with
      | some u => (readDecRequest u).map fun w => [.request (decodeDReq w)]
      | none =>
        match after "ENCODE ".toList t with
        | some u => (codes u).map encodeProgram
        | none =>
          match after "DECODE ".toList t with
          | some u => (quoted u).map decodeProgram
          | none => none

/-- The host statements of a program, one line after another; none when a line spells nothing. -/
def readProgram : List Text → Option (List HostStmt)
  | [] => some []
  | t :: ts =>
    match readLine t, readProgram ts with
    | some p, some q => some (p ++ q)
    | _, _ => none

/-! ### Printing -/

/-- A hexadecimal digit, upper case. -/
def hexChar (n : Nat) : Char := if n < 10 then Char.ofNat (0x30 + n) else Char.ofNat (0x37 + n)

/-- Two hexadecimal digits. -/
def hexByte (b : BitVec 8) : Text := [hexChar (b.toNat / 16), hexChar (b.toNat % 16)]

/-- A decimal number below 100. -/
def decimal (n : Nat) : Text :=
  if n < 10 then [Char.ofNat (0x30 + n)] else [Char.ofNat (0x30 + n / 10), Char.ofNat (0x30 + n % 10)]

/-- The lanes as pairs of hexadecimal digits, lane 0 first. -/
def hexLanes (bs : List (BitVec 8)) : Text := bs.flatMap hexByte

/-- A symbol as the character with its code. -/
def symChar (s : Sym) : Char := Char.ofNat s.toNat

/-- The byte lanes of a byte word, all five. -/
def byteLanes (d : BitVec 40) : List Byte := (List.range 5).map (blane d)

/-- The symbol lanes of a symbol word, all eight. -/
def symLanes (y : BitVec 64) : List Sym := (List.range 8).map (lane8 y)

/-- A request line that spells the encoder request whole: the `.raw` form, or the illegal form (R68). -/
def encRequestText (w : EReq) : Text :=
  let n := (eReqLen w).toNat
  let digits := "0x".toList ++ hexLanes (byteLanes (eReqData w))
  if n ≤ 5 then "ENC".toList ++ decimal n ++ ".raw ".toList ++ digits
  else "ENC.ILL".toList ++ decimal n ++ " ".toList ++ digits

/-- A request line that spells the decoder request whole (R68). -/
def decRequestText (w : DReq) : Text :=
  let n := (dReqCnt w).toNat
  let digits := "0x".toList ++ hexLanes (symLanes (dReqSym w))
  if n ≤ 8 then "DEC".toList ++ decimal n ++ ".raw ".toList ++ digits
  else "DEC.ILL".toList ++ decimal n ++ " ".toList ++ digits

/-- A request line that spells the instruction (R68). -/
def requestText (i : Instr) : Text :=
  match encode i with
  | .enc w => encRequestText w
  | .dec w => decRequestText w

/-- The listing of an encoder response; none for a word B32CORE cannot produce (R69, R64). -/
def eRspText (r : ERsp) : Option Text :=
  match eRspFault r with
  | some _ => none
  | none =>
    if eRspStatus r = statusOk then
      some ("ERsp OK CNT=".toList ++ decimal (eRspCnt r).toNat ++ " \"".toList ++ (symsOf r).map symChar ++ ['"'])
    else some "ERsp ILLEGAL_REQUEST".toList

/-- Bytes in hexadecimal with one space between two. -/
def spacedBytes : List Byte → Text
  | [] => []
  | [b] => hexByte b
  | b :: bs => hexByte b ++ ' ' :: spacedBytes bs

/-- The listing of a decoder response; none for a word B32CORE cannot produce (R69, R64). -/
def dRspText (r : DRsp) : Option Text :=
  match dRspFault r with
  | some _ => none
  | none =>
    if dRspStatus r = statusOk then
      some ("DRsp OK LEN=".toList ++ decimal (dRspLen r).toNat ++ " [".toList ++ spacedBytes (bytesOf r) ++ [']'])
    else if dRspStatus r = statusInvalidSymbol then
      some ("DRsp INVALID_SYMBOL ERRIDX=".toList ++ decimal (dRspErrIdx r).toNat)
    else some "DRsp ILLEGAL_REQUEST".toList

end Sys2Proof.Machine
end

