-- ==== Sys2Proof/Safety.lean ====
section
/-! DEFINITION. The terms in which claims about runs are made: runs, the invariant of a B32CORE, the answers owed to the
host, and fair rounds (spec 20_memory.md R40, R41, R51). -/

namespace Sys2Proof.Machine

/-- `k` steps, stopping at the first fault or refusal. -/
def runSteps : Nat → State → Result
  | 0, s => .next s
  | k + 1, s =>
    match step s with
    | .next t => runSteps k t
    | .fault f => .fault f
    | .refused r => .refused r

/-- No number of steps leads to a fault or a refusal. -/
def State.RunsSafely (s : State) : Prop := ∀ k, ∃ t, runSteps k s = .next t

/-- What holds of a B32CORE at all times: no queue is longer than its depth (10_state.md R29); every queued response is
one the block can produce (30_encoding.md R64); both queues are empty while reset is asserted
(70_reset_and_hazards.md R144, R148). -/
structure State.Inv (s : State) : Prop where
  encRoom : s.EQ.length ≤ Config.encDepth
  decRoom : s.DQ.length ≤ Config.decDepth
  encPossible : ∀ r ∈ s.EQ, eRspFault r = none
  decPossible : ∀ r ∈ s.DQ, dRspFault r = none
  resetEmpty : s.resetLine = true → s.EQ = [] ∧ s.DQ = []

/-- Every response taken or queued is in the image of the unit's response function (10_state.md R30). That each answers
a request presented is AnswersKeptInOrder's to say. -/
structure State.Genuine (s : State) : Prop where
  enc : ∀ r ∈ s.encTaken ++ s.EQ, ∃ w, r = encChunk w
  dec : ∀ r ∈ s.decTaken ++ s.DQ, ∃ w, r = decChunk w

/-- ENC's answers in order: those taken, those queued, that due for the request held (R40, R41). -/
def encAnswers (s : State) : List ERsp := s.encTaken ++ s.EQ ++ s.encHeld.toList.map encChunk

/-- DEC's answers in order (R40, R41). -/
def decAnswers (s : State) : List DRsp := s.decTaken ++ s.DQ ++ s.decHeld.toList.map decChunk

/-- The request, if any, that this event brings to ENC's port. -/
def encPresentedBy (e : Event) (s : State) : List EReq :=
  match presentedBy e s with
  | some (.enc w) => [w]
  | some (.dec _) => []
  | none => []

/-- The request, if any, that this event brings to DEC's port. -/
def decPresentedBy (e : Event) (s : State) : List DReq :=
  match presentedBy e s with
  | some (.enc _) => []
  | some (.dec w) => [w]
  | none => []

/-- What `f` says of the next event, gathered along `k` steps; nothing more after a fault or where nobody moves. -/
def alongSteps {α : Type} (f : Event → State → List α) : Nat → State → List α
  | 0, _ => []
  | k + 1, s =>
    match s.nextEvent with
    | none => []
    | some e =>
      f e s ++ match step s with
        | .next t => alongSteps f k t
        | .fault _ => []
        | .refused _ => []

/-- The requests that come to ENC's port in `k` steps, in order, whoever presents them. -/
def encAsked (k : Nat) (s : State) : List EReq := alongSteps encPresentedBy k s

/-- The requests that come to DEC's port in `k` steps, in order, whoever presents them. -/
def decAsked (k : Nat) (s : State) : List DReq := alongSteps decPresentedBy k s

/-- No reset of any kind in `k` steps (70_reset_and_hazards.md R150). -/
def noResetFor (k : Nat) (s : State) : Bool := (alongSteps (fun e s => [resetsBy e s]) k s).all (!·)

/-- A round in which each unit has its turn to accept and to deliver, the host taking what is offered (R51). -/
def fairRound : List Event :=
  [.transfer (.accept .enc), .transfer (.deliver .enc), .transfer (.accept .dec), .transfer (.deliver .dec)]

/-- `n` fair rounds. -/
def fairRounds : Nat → List Event
  | 0 => []
  | n + 1 => fairRound ++ fairRounds n

/-- An endless run in which `f n` is the `n`-th event, whatever the order of host, units and reset, and `r n` the state
before it. -/
def Play (f : Nat → Event) (r : Nat → State) : Prop :=
  ∀ n, (r n).schedule = [] ∧ step { r n with schedule := [f n] } = .next (r (n + 1))

/-- Weak fairness (20_memory.md R51), `ready n u` saying that the host is ready to take from unit `u` at moment `n`: it is
never so that from some moment on a unit always has room and a held request and yet never accepts, nor that it always
has a response and a ready host and yet never delivers. -/
def WeaklyFair (ready : Nat → UnitId → Prop) (f : Nat → Event) (r : Nat → State) : Prop :=
  ∀ (u : UnitId) (n : Nat),
    (∃ m, n ≤ m ∧ (f m = .transfer (.accept u) ∨ canAccept u (r m) = false)) ∧
    (∃ m, n ≤ m ∧ (deliversBy (f m) (r m) = some u ∨ canDeliver u (r m) = false ∨ ¬ ready m u))

/-- No unit can accept and the host cannot go on: the block waits, for ever unless something outside moves. -/
def State.Quiet (s : State) : Prop :=
  s.schedule = [] ∧ (∀ u, canAccept u s = false) ∧ hostNext .waiting s = none

/-- Nothing held, nothing queued, reset released. -/
def State.AtRest (s : State) : Prop :=
  s.EQ = [] ∧ s.DQ = [] ∧ s.encHeld = none ∧ s.decHeld = none ∧ s.resetLine = false

/-! ### Host programs -/

/-- The requests of a host program that travel on ENC's port, in order. -/
def encRequested (p : List HostStmt) : List EReq :=
  p.filterMap fun
    | .request i =>
      match encode i with
      | .enc w => some w
      | .dec _ => none
    | .take _ => none
    | .reset => none

/-- The requests of a host program that travel on DEC's port, in order. -/
def decRequested (p : List HostStmt) : List DReq :=
  p.filterMap fun
    | .request i =>
      match encode i with
      | .enc _ => none
      | .dec w => some w
    | .take _ => none
    | .reset => none

/-- The program, with `e` and `d` requests outstanding on the units, holds no `RESET`, never has more outstanding than a
unit's depth, and takes no more than it has asked for (70_reset_and_hazards.md R152, 42_message.md R121). -/
def withinDepth : Nat → Nat → List HostStmt → Bool
  | _, _, [] => true
  | e, d, .request i :: p =>
    match (encode i).unit with
    | .enc => decide (e < Config.encDepth) && withinDepth (e + 1) d p
    | .dec => decide (d < Config.decDepth) && withinDepth e (d + 1) p
  | e + 1, d, .take .enc :: p => withinDepth e d p
  | e, d + 1, .take .dec :: p => withinDepth e d p
  | 0, _, .take .enc :: _ => false
  | _, 0, .take .dec :: _ => false
  | _, _, .reset :: _ => false

/-! ### What a form answers, in the terms of the rules -/

/-- ENC can accept: no reset asserted and room in `EQ` (R38, R144). -/
def State.EncReady (s : State) : Prop := s.resetLine = false ∧ s.EQ.length < Config.encDepth

/-- DEC can accept: no reset asserted and room in `DQ` (R38, R144). -/
def State.DecReady (s : State) : Prop := s.resetLine = false ∧ s.DQ.length < Config.decDepth

/-- Every symbol is valid. -/
def AllValid (input : List Sym) : Prop := ∀ s ∈ input, (inv s).valid = true

/-- Lane `k` holds the first invalid symbol (41_decoder.md R88). -/
def FirstInvalidAt (input : List Sym) (k : Nat) : Prop :=
  ∃ s, input[k]? = some s ∧ (inv s).valid = false ∧ ∀ m < k, ∀ t, input[m]? = some t → (inv t).valid = true

/-- Form `i` has its payload in the lowest byte lanes of a word whose `LEN` is their number; and whenever ENC can accept,
it completes: one response joins `EQ` and nothing else changes; its `STATUS` is `OK`, its `CNT` is `n`, lane `k` is
`ALPHA` of the `k`-th group, lanes without a group are 0x00. -/
def EncAnswers (i : Instr) (payload : List Byte) (n : Nat) (groups : List Group) : Prop :=
  (∃ w : EReq, encode i = .enc w ∧ (eReqLen w).toNat = payload.length ∧
    ∀ k b, payload[k]? = some b → blane (eReqData w) k = b) ∧
  ∀ s : State, s.EncReady → ∃ r : ERsp,
    exec i s = .next { s with EQ := s.EQ ++ [r] } ∧
    eRspStatus r = 0b00 ∧ (eRspCnt r).toNat = n ∧ groups.length = n ∧
    (∀ k g, groups[k]? = some g → lane8 (eRspSym r) k = alpha g) ∧
    (∀ k, n ≤ k → k < 8 → lane8 (eRspSym r) k = 0x00)

/-- Form `i` has its input symbols in the lowest symbol lanes of a word whose `CNT` is their number; and whenever DEC can
accept, it completes: one response joins `DQ` and nothing else changes. With valid input symbols it is `OK`, `ERRIDX` 0,
`LEN` `n`, the given bytes, lanes beyond them 0x00. With an invalid one it is `INVALID_SYMBOL`, `ERRIDX` the first
invalid lane, `LEN` 0 and `DATA` 0. -/
def DecAnswers (i : Instr) (input : List Sym) (n : Nat) (bytes : List Byte) : Prop :=
  (∃ w : DReq, encode i = .dec w ∧ (dReqCnt w).toNat = input.length ∧
    ∀ k c, input[k]? = some c → lane8 (dReqSym w) k = c) ∧
  ∀ s : State, s.DecReady → ∃ r : DRsp,
    exec i s = .next { s with DQ := s.DQ ++ [r] } ∧
    (AllValid input →
      dRspStatus r = 0b00 ∧ dRspErrIdx r = 0 ∧ (dRspLen r).toNat = n ∧ bytes.length = n ∧
      (∀ k y, bytes[k]? = some y → blane (dRspData r) k = y) ∧
      (∀ k, n ≤ k → k < 5 → blane (dRspData r) k = 0x00)) ∧
    (∀ k, FirstInvalidAt input k →
      dRspStatus r = 0b01 ∧ (dRspErrIdx r).toNat = k ∧ dRspLen r = 0 ∧ dRspData r = 0)

/-- The 196 invalid codes (10_state.md R26). -/
def InvalidCode (c : Sym) : Prop :=
  c.toNat ≤ 0x2F ∨ (0x3A ≤ c.toNat ∧ c.toNat ≤ 0x40) ∨ c.toNat = 0x55 ∨ (0x5B ≤ c.toNat ∧ c.toNat ≤ 0x60) ∨
    c.toNat = 0x75 ∨ 0x7B ≤ c.toNat

end Sys2Proof.Machine
end

