-- ==== Sys2Proof/Certificates/Slice0/Obligations.lean ====
section
/-! DEFINITION. The statements for the provers. They are made over every state and operand; "can accept" is
State.EncReady or State.DecReady, conditions on the state alone. A rule that the spec marks as its own decision is named
with that decision. -/

open Sys2Proof Sys2Proof.Machine

/-- Decode undoes encode, for every form and every operand, don't-care lanes included (30_encoding.md sections 1 and 2; R53-R60 are the spec's decisions D5-D8, D14, D15). -/
def Obligations.DecodeOfEncode : Prop :=
  ∀ i : Instr, decodeWord (encode i) = i

/-- Encode undoes decode: every request word is the word of exactly one instruction (30_encoding.md sections 1 and 2). -/
def Obligations.EncodeOfDecode : Prop :=
  ∀ w : PortWord, encode (decodeWord w) = w

/-- The decoder and the rows of spec/opcode_table.json select the same form for every word (30_encoding.md section 2). -/
def Obligations.DecodeFollowsOpcodeTable : Prop :=
  (∀ row ∈ encRows, ∀ w : EReq, w.toNat &&& row.mask = row.pattern ↔ (decodeEReq w).mnemonic = row.mnemonic) ∧
  (∀ row ∈ decRows, ∀ w : DReq, w.toNat &&& row.mask = row.pattern ↔ (decodeDReq w).mnemonic = row.mnemonic)

/-- Sanity: example words of 95_test_vectors.md sections 2.2 and 2.3 decode as the spec's request lines say. -/
def Obligations.SpecWordsDecode : Prop :=
  decodeTableWord 48 0x1FF00000000 = some (.enc1 0xFF 0) ∧
  decodeTableWord 48 0x21234000000 = some (.enc2 0x12 0x34 0) ∧
  decodeTableWord 48 0x5F83E0F83E0 = some (.enc5 0xF8 0x3E 0x0F 0x83 0xE0) ∧
  decodeTableWord 48 0x6FFFFFFFFFF = some (.encIll6 0xFFFFFFFFFF) ∧
  decodeTableWord 72 0x15500000000000000 = some (.dec1 0x55 0) ∧
  decodeTableWord 72 0x649694C6C4F6F0000 = some (.dec6 0x49 0x69 0x4C 0x6C 0x4F 0x6F 0) ∧
  decodeTableWord 72 0x85A305A305A305A30 = some (.dec8 0x5A 0x30 0x5A 0x30 0x5A 0x30 0x5A 0x30) ∧
  decodeTableWord 72 0xA3030303030303030 = some (.decIll10 0x3030303030303030)

/-- ENC0 (40_encoder.md R77, the spec's decision D14). -/
def Obligations.Enc0AnswersNothing : Prop :=
  ∀ x : BitVec 40, EncAnswers (.enc0 x) [] 0 []

/-- ENC1 (40_encoder.md R78). The word layout is the spec's decision D5, D6, D10. -/
def Obligations.Enc1AnswersItsSymbols : Prop :=
  ∀ (b0 : Byte) (x : BitVec 32),
    EncAnswers (.enc1 b0 x) [b0] 2
      [b0.extractLsb' 3 5,
       b0.extractLsb' 0 3 ++ 0#2]

/-- ENC2 (40_encoder.md R79). The word layout is the spec's decision D5, D6, D10. -/
def Obligations.Enc2AnswersItsSymbols : Prop :=
  ∀ (b0 b1 : Byte) (x : BitVec 24),
    EncAnswers (.enc2 b0 b1 x) [b0, b1] 4
      [b0.extractLsb' 3 5,
       b0.extractLsb' 0 3 ++ b1.extractLsb' 6 2,
       b1.extractLsb' 1 5,
       b1.extractLsb' 0 1 ++ 0#4]

/-- ENC3 (40_encoder.md R80). The word layout is the spec's decision D5, D6, D10. -/
def Obligations.Enc3AnswersItsSymbols : Prop :=
  ∀ (b0 b1 b2 : Byte) (x : BitVec 16),
    EncAnswers (.enc3 b0 b1 b2 x) [b0, b1, b2] 5
      [b0.extractLsb' 3 5,
       b0.extractLsb' 0 3 ++ b1.extractLsb' 6 2,
       b1.extractLsb' 1 5,
       b1.extractLsb' 0 1 ++ b2.extractLsb' 4 4,
       b2.extractLsb' 0 4 ++ 0#1]

/-- ENC4 (40_encoder.md R81). The word layout is the spec's decision D5, D6, D10. -/
def Obligations.Enc4AnswersItsSymbols : Prop :=
  ∀ (b0 b1 b2 b3 : Byte) (x : BitVec 8),
    EncAnswers (.enc4 b0 b1 b2 b3 x) [b0, b1, b2, b3] 7
      [b0.extractLsb' 3 5,
       b0.extractLsb' 0 3 ++ b1.extractLsb' 6 2,
       b1.extractLsb' 1 5,
       b1.extractLsb' 0 1 ++ b2.extractLsb' 4 4,
       b2.extractLsb' 0 4 ++ b3.extractLsb' 7 1,
       b3.extractLsb' 2 5,
       b3.extractLsb' 0 2 ++ 0#3]

/-- ENC5 (40_encoder.md R82). The word layout is the spec's decision D5, D6, D10. -/
def Obligations.Enc5AnswersItsSymbols : Prop :=
  ∀ (b0 b1 b2 b3 b4 : Byte),
    EncAnswers (.enc5 b0 b1 b2 b3 b4) [b0, b1, b2, b3, b4] 8
      [b0.extractLsb' 3 5,
       b0.extractLsb' 0 3 ++ b1.extractLsb' 6 2,
       b1.extractLsb' 1 5,
       b1.extractLsb' 0 1 ++ b2.extractLsb' 4 4,
       b2.extractLsb' 0 4 ++ b3.extractLsb' 7 1,
       b3.extractLsb' 2 5,
       b3.extractLsb' 0 2 ++ b4.extractLsb' 5 3,
       b4.extractLsb' 0 5]

/-- The illegal encoder forms (40_encoder.md R83, R84, 60_exceptions.md R130; the spec's decision D15). -/
def Obligations.EncIllegalFormsAnswered : Prop :=
  ∀ (i : Instr) (d : BitVec 40), i = .encIll6 d ∨ i = .encIll7 d →
    ∀ s : State, s.EncReady → ∃ r : ERsp, exec i s = .next { s with EQ := s.EQ ++ [r] } ∧
      eRspStatus r = 0b10 ∧ eRspCnt r = 0 ∧ eRspSym r = 0

/-- DEC0 (41_decoder.md R99, the spec's decision D14). -/
def Obligations.Dec0AnswersNothing : Prop :=
  ∀ x : BitVec 64, DecAnswers (.dec0 x) [] 0 []

/-- DEC1 (41_decoder.md R100). The word layout is the spec's decision D7, D8, D12, D13. -/
def Obligations.Dec1AnswersItsBytes : Prop :=
  ∀ (s0 : Sym) (x : BitVec 56),
    DecAnswers (.dec1 s0 x) [s0] 0
      []

/-- DEC2 (41_decoder.md R101). The word layout is the spec's decision D7, D8, D12, D13. -/
def Obligations.Dec2AnswersItsBytes : Prop :=
  ∀ (s0 s1 : Sym) (x : BitVec 48),
    DecAnswers (.dec2 s0 s1 x) [s0, s1] 1
      [valueOf s0 ++ (valueOf s1).extractLsb' 2 3]

/-- DEC3 (41_decoder.md R102). The word layout is the spec's decision D7, D8, D12, D13. -/
def Obligations.Dec3AnswersItsBytes : Prop :=
  ∀ (s0 s1 s2 : Sym) (x : BitVec 40),
    DecAnswers (.dec3 s0 s1 s2 x) [s0, s1, s2] 1
      [valueOf s0 ++ (valueOf s1).extractLsb' 2 3]

/-- DEC4 (41_decoder.md R103). The word layout is the spec's decision D7, D8, D12, D13. -/
def Obligations.Dec4AnswersItsBytes : Prop :=
  ∀ (s0 s1 s2 s3 : Sym) (x : BitVec 32),
    DecAnswers (.dec4 s0 s1 s2 s3 x) [s0, s1, s2, s3] 2
      [valueOf s0 ++ (valueOf s1).extractLsb' 2 3,
       (valueOf s1).extractLsb' 0 2 ++ valueOf s2 ++ (valueOf s3).extractLsb' 4 1]

/-- DEC5 (41_decoder.md R104). The word layout is the spec's decision D7, D8, D12, D13. -/
def Obligations.Dec5AnswersItsBytes : Prop :=
  ∀ (s0 s1 s2 s3 s4 : Sym) (x : BitVec 24),
    DecAnswers (.dec5 s0 s1 s2 s3 s4 x) [s0, s1, s2, s3, s4] 3
      [valueOf s0 ++ (valueOf s1).extractLsb' 2 3,
       (valueOf s1).extractLsb' 0 2 ++ valueOf s2 ++ (valueOf s3).extractLsb' 4 1,
       (valueOf s3).extractLsb' 0 4 ++ (valueOf s4).extractLsb' 1 4]

/-- DEC6 (41_decoder.md R105). The word layout is the spec's decision D7, D8, D12, D13. -/
def Obligations.Dec6AnswersItsBytes : Prop :=
  ∀ (s0 s1 s2 s3 s4 s5 : Sym) (x : BitVec 16),
    DecAnswers (.dec6 s0 s1 s2 s3 s4 s5 x) [s0, s1, s2, s3, s4, s5] 3
      [valueOf s0 ++ (valueOf s1).extractLsb' 2 3,
       (valueOf s1).extractLsb' 0 2 ++ valueOf s2 ++ (valueOf s3).extractLsb' 4 1,
       (valueOf s3).extractLsb' 0 4 ++ (valueOf s4).extractLsb' 1 4]

/-- DEC7 (41_decoder.md R106). The word layout is the spec's decision D7, D8, D12, D13. -/
def Obligations.Dec7AnswersItsBytes : Prop :=
  ∀ (s0 s1 s2 s3 s4 s5 s6 : Sym) (x : BitVec 8),
    DecAnswers (.dec7 s0 s1 s2 s3 s4 s5 s6 x) [s0, s1, s2, s3, s4, s5, s6] 4
      [valueOf s0 ++ (valueOf s1).extractLsb' 2 3,
       (valueOf s1).extractLsb' 0 2 ++ valueOf s2 ++ (valueOf s3).extractLsb' 4 1,
       (valueOf s3).extractLsb' 0 4 ++ (valueOf s4).extractLsb' 1 4,
       (valueOf s4).extractLsb' 0 1 ++ valueOf s5 ++ (valueOf s6).extractLsb' 3 2]

/-- DEC8 (41_decoder.md R107). The word layout is the spec's decision D7, D8, D12, D13. -/
def Obligations.Dec8AnswersItsBytes : Prop :=
  ∀ (s0 s1 s2 s3 s4 s5 s6 s7 : Sym),
    DecAnswers (.dec8 s0 s1 s2 s3 s4 s5 s6 s7) [s0, s1, s2, s3, s4, s5, s6, s7] 5
      [valueOf s0 ++ (valueOf s1).extractLsb' 2 3,
       (valueOf s1).extractLsb' 0 2 ++ valueOf s2 ++ (valueOf s3).extractLsb' 4 1,
       (valueOf s3).extractLsb' 0 4 ++ (valueOf s4).extractLsb' 1 4,
       (valueOf s4).extractLsb' 0 1 ++ valueOf s5 ++ (valueOf s6).extractLsb' 3 2,
       (valueOf s6).extractLsb' 0 3 ++ valueOf s7] ∧
    ∀ s : State, s.DecReady → AllValid [s0, s1, s2, s3, s4, s5, s6, s7] →
      exec (.dec8 s0 s1 s2 s3 s4 s5 s6 s7) s = .next { s with DQ := s.DQ ++ [dRspWord 0b00 0 5
        (valueOf s0 ++ valueOf s1 ++ valueOf s2 ++ valueOf s3 ++ valueOf s4 ++ valueOf s5 ++ valueOf s6 ++ valueOf s7)] }

/-- The illegal decoder forms (41_decoder.md R108-R114, 60_exceptions.md R130; the spec's decision D15). -/
def Obligations.DecIllegalFormsAnswered : Prop :=
  ∀ (i : Instr) (y : BitVec 64),
    i ∈ [.decIll9 y, .decIll10 y, .decIll11 y, .decIll12 y, .decIll13 y, .decIll14 y, .decIll15 y] →
    ∀ s : State, s.DecReady → ∃ r : DRsp, exec i s = .next { s with DQ := s.DQ ++ [r] } ∧
      dRspStatus r = 0b10 ∧ dRspErrIdx r = 0 ∧ dRspLen r = 0 ∧ dRspData r = 0

/-- The forms' own rules (R77-R84) agree with the response function EncChunk (40_encoder.md R71). -/
def Obligations.EncFormsAnswerEncChunk : Prop :=
  ∀ (i : Instr) (w : EReq), encode i = .enc w →
    ∀ s : State, s.EncReady → exec i s = .next { s with EQ := s.EQ ++ [encChunk w] }

/-- The forms' own rules (R99-R114) agree with the response function DecChunk (41_decoder.md R89). -/
def Obligations.DecFormsAnswerDecChunk : Prop :=
  ∀ (i : Instr) (w : DReq), encode i = .dec w →
    ∀ s : State, s.DecReady → exec i s = .next { s with DQ := s.DQ ++ [decChunk w] }

/-- Where a form waits: 20_memory.md R50 and 70_reset_and_hazards.md R144 (the spec's decisions D19, D21); that exec puts the word on the port is the model's reading (log 5). -/
def Obligations.UnacceptedRequestIsHeld : Prop :=
  (∀ (i : Instr) (w : EReq), encode i = .enc w →
    ∀ s : State, ¬ s.EncReady → exec i s = .next { s with encHeld := some w }) ∧
  (∀ (i : Instr) (w : DReq), encode i = .dec w →
    ∀ s : State, ¬ s.DecReady → exec i s = .next { s with decHeld := some w })

/-- The units are stateless (10_state.md R16). -/
def Obligations.ResponseDependsOnRequestAlone : Prop :=
  ∀ i : Instr,
    (∃ r : ERsp, ∀ s : State, s.EncReady → exec i s = .next { s with EQ := s.EQ ++ [r] }) ∨
    (∃ r : DRsp, ∀ s : State, s.DecReady → exec i s = .next { s with DQ := s.DQ ++ [r] })

/-- The per-form statements reach a run through this one (20_memory.md R38). That a schedule in State says whose turn it is, is the model's choice (log 2); so is the port as the place of fetching (log 5). -/
def Obligations.StepRunsAcceptedRequest : Prop :=
  ∀ (s : State) (es : List Event),
    (s.schedule = .transfer (.accept .enc) :: es →
      (∀ w, s.encHeld = some w → step s = exec (decodeEReq w) { s with encHeld := none, schedule := es }) ∧
      (s.encHeld = none → step s = .next { s with schedule := es })) ∧
    (s.schedule = .transfer (.accept .dec) :: es →
      (∀ w, s.decHeld = some w → step s = exec (decodeDReq w) { s with decHeld := none, schedule := es }) ∧
      (s.decHeld = none → step s = .next { s with schedule := es }))

/-- The model's own convention for placing a program's word (log 9, log 10). -/
def Obligations.FetchWordRunsNext : Prop :=
  ∀ (s : State) (nbits w : Nat) (i : Instr), decodeTableWord nbits w = some i →
    (tablePort nbits = .enc → step (s.withFetchWord nbits w) = exec i { s with encHeld := none }) ∧
    (tablePort nbits = .dec → step (s.withFetchWord nbits w) = exec i { s with decHeld := none }) ∧
    (portFree (tablePort nbits) s = true → step (s.withFetchWord nbits w) = exec i s)

/-- Deliver (20_memory.md R39, the spec's decision D18); the list of what was taken is the model's (log 1). -/
def Obligations.DeliverHandsOverTheOldest : Prop :=
  ∀ (s : State) (es : List Event), s.resetLine = false →
    (s.schedule = .transfer (.deliver .enc) :: es →
      (∀ r rs, s.EQ = r :: rs → eRspFault r = none →
        step s = .next { s with EQ := rs, encTaken := s.encTaken ++ [r], schedule := es }) ∧
      (s.EQ = [] → step s = .next { s with schedule := es })) ∧
    (s.schedule = .transfer (.deliver .dec) :: es →
      (∀ r rs, s.DQ = r :: rs → dRspFault r = none →
        step s = .next { s with DQ := rs, decTaken := s.decTaken ++ [r], schedule := es }) ∧
      (s.DQ = [] → step s = .next { s with schedule := es }))

/-- 70_reset_and_hazards.md R144 (the spec's decision D21); the reset line as a field is log 6. -/
def Obligations.NoTransferWhileResetAsserted : Prop :=
  ∀ (s : State) (x : Transfer) (es : List Event), s.resetLine = true → s.schedule = .transfer x :: es →
    step s = .next { s with schedule := es }

/-- Reset() (70_reset_and_hazards.md R148) and its precedence (R149); the spec's decisions D21, D25; the reset line is log 6. -/
def Obligations.ResetDiscardsAndWins : Prop :=
  ∀ (s : State) (es : List Event),
    (∀ x : Option Transfer, s.schedule = .reset x :: es →
      step s = .next { s with EQ := [], DQ := [], schedule := es }) ∧
    (s.schedule = .assertReset :: es →
      step s = .next { s with EQ := [], DQ := [], resetLine := true, schedule := es })

/-- 70_reset_and_hazards.md R144 (the spec's decision D21); every depth is at least 1 (00_scope.md R5, log 4). For a state with reset asserted that meets State.Inv this is R144; that a release of a reset not asserted, or one from a state outside State.Inv, discards queued responses too is the model's choice (log 6). -/
def Obligations.ReleasedResetLeavesUnitsReady : Prop :=
  ∀ (s : State) (es : List Event), s.schedule = .releaseReset :: es →
    ∃ t, step s = .next t ∧ t.EQ = [] ∧ t.DQ = [] ∧ t.EncReady ∧ t.DecReady ∧ t.encHeld = s.encHeld ∧
      t.decHeld = s.decHeld ∧ t.encTaken = s.encTaken ∧ t.decTaken = s.decTaken ∧ t.program = s.program ∧
      t.schedule = es

/-- 20_memory.md R39 and R50, 30_encoding.md R69 and 70_reset_and_hazards.md R147; where the host's program stands and that a step without a mover changes nothing are the model's choices (log 1, log 3), and so are the two styles of host (log 18). -/
def Obligations.PresentedRequestWaitsItsTurn : Prop :=
  ∀ (s : State) (es : List Event),
    (∀ w, s.schedule = .present (.enc w) :: es →
      (s.encHeld = none → step s = .next { s with encHeld := some w, schedule := es }) ∧
      (∀ v, s.encHeld = some v → step s = .next { s with schedule := es })) ∧
    (∀ w, s.schedule = .present (.dec w) :: es →
      (s.decHeld = none → step s = .next { s with decHeld := some w, schedule := es }) ∧
      (∀ v, s.decHeld = some v → step s = .next { s with schedule := es })) ∧
    (∀ h, s.schedule = .host h :: es →
      (s.program = [] → step s = .next { s with schedule := es }) ∧
      (h = .waiting → s.encHeld ≠ none ∨ s.decHeld ≠ none → step s = .next { s with schedule := es }) ∧
      (h = .overlapping ∨ s.encHeld = none ∧ s.decHeld = none → ∀ st p, s.program = st :: p →
        (∀ i w, st = .request i → encode i = .enc w →
          (s.encHeld = none → step s = .next { s with encHeld := some w, program := p, schedule := es }) ∧
          (s.encHeld ≠ none → step s = .next { s with schedule := es })) ∧
        (∀ i w, st = .request i → encode i = .dec w →
          (s.decHeld = none → step s = .next { s with decHeld := some w, program := p, schedule := es }) ∧
          (s.decHeld ≠ none → step s = .next { s with schedule := es })) ∧
        (st = .take .enc →
          (s.EQ = [] ∨ s.resetLine = true → step s = .next { s with schedule := es }) ∧
          (∀ r rs, s.resetLine = false → s.EQ = r :: rs → eRspFault r = none →
            step s = .next { s with EQ := rs, encTaken := s.encTaken ++ [r], program := p, schedule := es })) ∧
        (st = .take .dec →
          (s.DQ = [] ∨ s.resetLine = true → step s = .next { s with schedule := es }) ∧
          (∀ r rs, s.resetLine = false → s.DQ = r :: rs → dRspFault r = none →
            step s = .next { s with DQ := rs, decTaken := s.decTaken ++ [r], program := p, schedule := es })) ∧
        (st = .reset → step s = .next { s with EQ := [], DQ := [], program := p, schedule := es }))) ∧
    (s.Quiet → step s = .next s)

/-- 30_encoding.md R64 (the spec's decision D16), 60_exceptions.md R142; that the word is met when delivered is log 8. -/
def Obligations.StepFaultsExactlyOnImpossibleResponse : Prop :=
  ∀ s : State,
    ((∃ f, step s = .fault f) ↔
      s.resetLine = false ∧ ∃ e, s.nextEvent = some e ∧
        ((deliversBy e s = some .enc ∧ ∃ r rs, s.EQ = r :: rs ∧
          (eRspStatus r = 0b11 ∨ eRspStatus r = 0b01 ∨ (eRspCnt r).toNat ∈ [1, 3, 6, 9, 10, 11, 12, 13, 14, 15])) ∨
        (deliversBy e s = some .dec ∧ ∃ r rs, s.DQ = r :: rs ∧
          (dRspStatus r = 0b11 ∨ (dRspLen r).toNat ∈ [6, 7])))) ∧
    ∀ x, step s ≠ .refused x

/-- 20_memory.md R38, R42 and 60_exceptions.md R139: no request of one unit affects the other. -/
def Obligations.UnitTransfersLeaveTheOtherUnit : Prop :=
  ∀ (s t : State) (es : List Event), step s = .next t →
    (s.schedule = .transfer (.accept .enc) :: es ∨ s.schedule = .transfer (.deliver .enc) :: es →
      t.DQ = s.DQ ∧ t.decHeld = s.decHeld ∧ t.decTaken = s.decTaken ∧ t.resetLine = s.resetLine ∧
      t.program = s.program ∧ t.schedule = es) ∧
    (s.schedule = .transfer (.accept .dec) :: es ∨ s.schedule = .transfer (.deliver .dec) :: es →
      t.EQ = s.EQ ∧ t.encHeld = s.encHeld ∧ t.encTaken = s.encTaken ∧ t.resetLine = s.resetLine ∧
      t.program = s.program ∧ t.schedule = es)

/-- 20_memory.md R42: there is no order between the units. The invariant rules out queued words that B32CORE cannot produce, on which a delivery faults. -/
def Obligations.UnitTransfersCommute : Prop :=
  ∀ (s : State) (x y : Transfer) (es : List Event), s.Inv →
    x ∈ [.accept .enc, .deliver .enc] → y ∈ [.accept .dec, .deliver .dec] →
    ∃ t, runSteps 2 { s with schedule := .transfer x :: .transfer y :: es } = .next t ∧
      runSteps 2 { s with schedule := .transfer y :: .transfer x :: es } = .next t

/-- 10_state.md R33 (the spec's decision D21). The reset values of the ports, the host's program and the schedule are the model's (log 1, log 2). -/
def Obligations.ResetStateMeetsInvariant : Prop :=
  State.reset.AtRest ∧ State.reset.encTaken = [] ∧ State.reset.decTaken = [] ∧ State.reset.program = [] ∧
    State.reset.schedule = [] ∧ State.reset.EncReady ∧ State.reset.DecReady ∧ State.reset.Inv ∧ State.reset.Genuine

/-- 10_state.md R29, 30_encoding.md R64, 70_reset_and_hazards.md R144, for every state that meets the invariant and every event. -/
def Obligations.EveryStepKeepsInvariant : Prop :=
  ∀ s t : State, s.Inv → step s = .next t → t.Inv

/-- 60_exceptions.md R142: every case is a defined response or a hold, and the one fault never happens on this hardware. 20_memory.md R51: the moves after the schedule's end are fair (the order of the movers is the model's choice, log 3). -/
def Obligations.InvariantRunsNeverStop : Prop :=
  ∀ s : State, s.Inv → s.RunsSafely ∧ ∃ k t, runSteps k s = .next t ∧ t.Quiet

/-- 10_state.md R30: a queue entry is a response word computed by the unit's response function. It does not say which request a response answers; AnswersKeptInOrder does. -/
def Obligations.EveryStepKeepsGenuine : Prop :=
  ∀ s t : State, s.Genuine → step s = .next t → t.Genuine

/-- 20_memory.md R40 and R41: one response per accepted request, delivered in the order of acceptance. -/
def Obligations.AnswersKeptInOrder : Prop :=
  ∀ s t : State, step s = .next t →
    (s.nextEvent = none → encAnswers t = encAnswers s ∧ decAnswers t = decAnswers s) ∧
    (∀ e, s.nextEvent = some e → resetsBy e s = false →
      encAnswers t = encAnswers s ++ (encPresentedBy e s).map encChunk ∧
      decAnswers t = decAnswers s ++ (decPresentedBy e s).map decChunk)

/-- 20_memory.md R51 (the spec's decision D20) and 70_reset_and_hazards.md R153: with fair turns and a host that takes, the block never stalls. Clause 2 takes R51's weak fairness itself as its premise. -/
def Obligations.FairRoundsDrainBothUnits : Prop :=
  (∀ (s : State) (n : Nat), s.Inv → s.resetLine = false → s.schedule = fairRounds n →
    s.encHeld.toList.length + s.EQ.length ≤ n → s.decHeld.toList.length + s.DQ.length ≤ n →
    ∃ t, runSteps (4 * n) s = .next t ∧ t.AtRest ∧ t.encTaken = encAnswers s ∧ t.decTaken = decAnswers s) ∧
  (∀ (f : Nat → Event) (r : Nat → State), Play f r → WeaklyFair (fun _ _ => True) f r → (r 0).resetLine = false →
    (∀ n, resetsBy (f n) (r n) = false) →
    ∀ n, ∃ m, n ≤ m ∧ encAnswers (r n) <+: (r m).encTaken ∧ decAnswers (r n) <+: (r m).decTaken)

/-- 40_encoder.md R74 (the masking is the spec's decision D9). -/
def Obligations.EncoderIgnoresLanesBeyondLen : Prop :=
  ∀ w w' : EReq, eReqLen w = eReqLen w' →
    (∀ i < (eReqLen w).toNat, blane (eReqData w) i = blane (eReqData w') i) → encChunk w = encChunk w'

/-- 41_decoder.md R92 (ignoring the driven values is the spec's decision D11). -/
def Obligations.DecoderIgnoresLanesBeyondCnt : Prop :=
  ∀ w w' : DReq, dReqCnt w = dReqCnt w' →
    (∀ k < (dReqCnt w).toNat, lane8 (dReqSym w) k = lane8 (dReqSym w') k) → decChunk w = decChunk w'

/-- 41_decoder.md R97. -/
def Obligations.CaseAndAliasDoNotMatter : Prop :=
  (∀ w w' : DReq, dReqCnt w = dReqCnt w' →
    (∀ k < (dReqCnt w).toNat, inv (lane8 (dReqSym w) k) = inv (lane8 (dReqSym w') k)) → decChunk w = decChunk w') ∧
  (∀ c : Sym, inv (fold c) = inv c ∧ inv (lowerCode c) = inv c) ∧
  (∀ c ∈ ([0x49, 0x69, 0x4C, 0x6C] : List Sym), inv c = inv 0x31) ∧
  (∀ c ∈ ([0x4F, 0x6F] : List Sym), inv c = inv 0x30)

/-- 40_encoder.md R86. -/
def Obligations.EncoderResponseProperties : Prop :=
  ∀ w : EReq, eRspStatus (encChunk w) = 0b00 →
    let len := (eReqLen w).toNat
    let n := (eRspCnt (encChunk w)).toNat
    n ∈ [0, 2, 4, 5, 7, 8] ∧
    (∀ k < n, lane8 (eRspSym (encChunk w)) k ∈ alphabet) ∧
    (0 < n → (valueOf (lane8 (eRspSym (encChunk w)) (n - 1))).toNat % 2 ^ (5 * n - 8 * len) = 0) ∧
    (∀ k, n ≤ k → k < 8 → 8 * len ≤ 5 * k ∧ groupOf (byteWord (encByte w)) k = 0) ∧
    8 * len ≤ 5 * n

/-- 60_exceptions.md R129-R131 and R133, 41_decoder.md R88, R90, R94 (the precedence is the spec's decision D15). -/
def Obligations.StatusIsOneAndFirst : Prop :=
  ∀ w : DReq,
    (9 ≤ (dReqCnt w).toNat → decChunk w = dRspWord 0b10 0 0 0) ∧
    ((dReqCnt w).toNat ≤ 8 → ∀ k, FirstInvalidAt (decInput w) k → decChunk w = dRspWord 0b01 (BitVec.ofNat 3 k) 0 0) ∧
    ((dReqCnt w).toNat ≤ 8 → AllValid (decInput w) →
      dRspStatus (decChunk w) = 0b00 ∧ dRspErrIdx (decChunk w) = 0 ∧
      (dRspLen (decChunk w)).toNat = 5 * (dReqCnt w).toNat / 8)

/-- 41_decoder.md R116. -/
def Obligations.DecoderUndoesEncoder : Prop :=
  ∀ w : EReq, (eReqLen w).toNat ≤ 5 →
    decChunk (dReqWord (eRspCnt (encChunk w)) (eRspSym (encChunk w))) =
      dRspWord 0b00 0 (eReqLen w) (byteWord fun i => if i < (eReqLen w).toNat then blane (eReqData w) i else 0x00)

/-- 42_message.md R118. -/
def Obligations.EncodeLengthLaw : Prop :=
  ∀ b : List Byte, (encodeMessage b).length = (8 * b.length + 4) / 5

/-- 42_message.md R120. -/
def Obligations.DecodeLengthAndTruncation : Prop :=
  ∀ (s : List Sym) (out : List Byte), decodeMessage s = some out →
    out.length = 5 * s.length / 8 ∧
    out = ((decodeRequests s).flatMap fun w => (List.range 5).map (blane (groupWord (decValue w)))).take
      (5 * s.length / 8)

/-- The two forms of 42_message.md R117. -/
def Obligations.EncodeIsBitRegrouping : Prop :=
  ∀ b : List Byte, encodeMessage b = encodeBits b

/-- The two forms of 42_message.md R119. -/
def Obligations.DecodeIsBitRegrouping : Prop :=
  ∀ s : List Sym, decodeMessage s = decodeBits s

/-- 42_message.md R126. -/
def Obligations.MessageRoundTrip : Prop :=
  ∀ b : List Byte, decodeMessage (encodeMessage b) = some b

/-- 42_message.md R127. -/
def Obligations.DecodeIsCaseAndAliasTolerant : Prop :=
  (∀ s : List Sym, decodeMessage (s.map fold) = decodeMessage s ∧ decodeMessage (s.map lowerCode) = decodeMessage s) ∧
  (∀ s t : List Sym, s.map inv = t.map inv → decodeMessage s = decodeMessage t) ∧
  decodeMessage [0x49, 0x69, 0x4C, 0x6C, 0x4F, 0x6F] = some [0x08, 0x42, 0x10] ∧
  decodeMessage [0x31, 0x31, 0x31, 0x31, 0x30, 0x30] = some [0x08, 0x42, 0x10]

/-- 42_message.md R128, first sentence, with the codes of 10_state.md R26. -/
def Obligations.DecodeRejectsExactlyInvalidCodes : Prop :=
  ∀ s : List Sym, decodeMessage s = none ↔ ∃ c ∈ s, InvalidCode c

/-- 42_message.md R128, second sentence. -/
def Obligations.EncoderImageIsCanonicalText : Prop :=
  (∀ s : List Sym, (∃ b, encodeMessage b = s) ↔ canonicalText s = true) ∧
  (∀ s : List Sym, AllValid s → canonicalText s = false → ∃ b, decodeMessage s = some b ∧ encodeMessage b ≠ s)

/-- 42_message.md R125 for ENCODE: every interleaving of takes, every depth, no reset and no other request on the port. -/
def Obligations.EncodeOnTheBlock : Prop :=
  ∀ (b : List Byte) (s t : State) (k : Nat), s.EQ = [] → s.encHeld = none →
    runSteps k s = .next t → noResetFor k s = true → encAsked k s = encodeRequests b →
    t.encTaken.length = s.encTaken.length + (encodeRequests b).length →
    encodeResult (t.encTaken.drop s.encTaken.length) = encodeMessage b ∧ t.EQ = [] ∧ t.encHeld = none

/-- 42_message.md R125 for DECODE: every interleaving of takes, every depth, no reset and no other request on the port; and R124's host that stops presenting after the first INVALID_SYMBOL (the spec's decision D24). -/
def Obligations.DecodeOnTheBlock : Prop :=
  ∀ (m : List Sym) (s t : State) (k : Nat), s.DQ = [] → s.decHeld = none →
    runSteps k s = .next t → noResetFor k s = true → decAsked k s <+: decodeRequests m →
    (decAsked k s = decodeRequests m ∨ ∃ r ∈ t.decTaken.drop s.decTaken.length, dRspStatus r = 0b01) →
    t.decTaken.length = s.decTaken.length + (decAsked k s).length →
    decodeResult (t.decTaken.drop s.decTaken.length) = decodeMessage m ∧ t.DQ = [] ∧ t.decHeld = none

/-- 70_reset_and_hazards.md R152 (the spec's decision D19) and 30_encoding.md R69, for a host that waits; the order of the movers after the schedule's end is the model's (log 3), and so is the host's waiting on a held request (log 18). Clauses 1 and 2 are about encodeProgram and decodeProgram, whose expansion is the model's choice (log 19): one request outstanding, and a DECODE that goes on after an INVALID_SYMBOL, where 42_message.md R121 allows other interleavings and R124 a host that stops. -/
def Obligations.SerialProgramsComplete : Prop :=
  (∀ (b : List Byte) (p : List HostStmt) (s : State), s.AtRest → s.schedule = [] → s.program = encodeProgram b ++ p →
    ∃ k, runSteps k s =
      .next { s with encTaken := s.encTaken ++ (encodeRequests b).map encChunk, program := p }) ∧
  (∀ (m : List Sym) (p : List HostStmt) (s : State), s.AtRest → s.schedule = [] → s.program = decodeProgram m ++ p →
    ∃ k, runSteps k s =
      .next { s with decTaken := s.decTaken ++ (decodeRequests m).map decChunk, program := p }) ∧
  (∀ s : State, s.AtRest → s.schedule = [] → withinDepth 0 0 s.program = true →
    ∃ k t, runSteps k s = .next t ∧ t.program = [] ∧ t.encHeld = none ∧ t.decHeld = none ∧
      encAnswers t = encAnswers s ++ (encRequested s.program).map encChunk ∧
      decAnswers t = decAnswers s ++ (decRequested s.program).map decChunk ∧
      t.encTaken.length = s.encTaken.length + s.program.count (.take .enc) ∧
      t.decTaken.length = s.decTaken.length + s.program.count (.take .dec)) ∧
  (∀ (ws : List EReq) (p : List HostStmt) (s : State), s.AtRest → s.schedule = [] → Config.encDepth < ws.length →
    s.program = ws.map (fun w => .request (decodeEReq w)) ++ p →
    ∀ k, ∃ t q, runSteps k s = .next t ∧ t.program = q ++ p ∧ t.encTaken = s.encTaken ∧ t.decTaken = s.decTaken) ∧
  (∀ (ws : List DReq) (p : List HostStmt) (s : State), s.AtRest → s.schedule = [] → Config.decDepth < ws.length →
    s.program = ws.map (fun w => .request (decodeDReq w)) ++ p →
    ∀ k, ∃ t q, runSteps k s = .next t ∧ t.program = q ++ p ∧ t.encTaken = s.encTaken ∧ t.decTaken = s.decTaken) ∧
  (∀ (u : UnitId) (p : List HostStmt) (s : State), s.AtRest → s.schedule = [] → s.program = .take u :: p →
    ∀ k, runSteps k s = .next s)

/-- 42_message.md R124 (the spec's decision D24). -/
def Obligations.ErrorPositionIsFirstInvalid : Prop :=
  ∀ m : List Sym, errorPosition ((decodeRequests m).map decChunk) = firstInvalid m

/-- The request syntax of 30_encoding.md R68 (the spec's decision D23, log 15). -/
def Obligations.RequestTextReadsBack : Prop :=
  ∀ i : Instr, readRequest (requestText i) = some i
end

