-- ==== Sys2Proof/Laws/Lanes.lean ====
section
/-! SUPPORT. The lanes and fields of the words the model packs (spec 30_encoding.md R54-R58), and what the tables and
the symbol scan say. The lane lemmas reduce `extractLsb'` of an append with
`simp (disch := decide) only [BitVec.extractLsb'_append_eq_of_le, BitVec.extractLsb'_append_eq_of_add_le]`. -/

namespace Sys2Proof.Machine

/-! ### Lanes -/

theorem lane8_symWord (f : Nat → Sym) {k : Nat} (h : k < 8) : lane8 (symWord f) k = f k := by
  interval_cases k <;>
    simp (disch := decide) only [lane8, symWord, Nat.reduceMul, Nat.reduceSub, BitVec.extractLsb'_append_eq_of_le,
      BitVec.extractLsb'_append_eq_of_add_le, BitVec.extractLsb'_eq_self]

theorem blane_byteWord (f : Nat → Byte) {i : Nat} (h : i < 5) : blane (byteWord f) i = f i := by
  interval_cases i <;>
    simp (disch := decide) only [blane, byteWord, Nat.reduceMul, Nat.reduceSub, BitVec.extractLsb'_append_eq_of_le,
      BitVec.extractLsb'_append_eq_of_add_le, BitVec.extractLsb'_eq_self]

theorem groupOf_groupWord (v : Nat → Group) {k : Nat} (h : k < 8) : groupOf (groupWord v) k = v k := by
  interval_cases k <;>
    simp (disch := decide) only [groupOf, groupWord, Nat.reduceMul, Nat.reduceSub, BitVec.extractLsb'_append_eq_of_le,
      BitVec.extractLsb'_append_eq_of_add_le, BitVec.extractLsb'_eq_self]

/-! ### Fields of the four port words -/

@[simp] theorem eReqLen_word (n : BitVec 3) (d : BitVec 40) : eReqLen (eReqWord n d) = n := by
  simp only [eReqLen, eReqWord, BitVec.extractLsb'_append_eq_left]

@[simp] theorem eReqData_word (n : BitVec 3) (d : BitVec 40) : eReqData (eReqWord n d) = d := by
  simp only [eReqData, eReqWord, BitVec.extractLsb'_append_eq_right]

@[simp] theorem dReqCnt_word (n : BitVec 4) (y : BitVec 64) : dReqCnt (dReqWord n y) = n := by
  simp only [dReqCnt, dReqWord, BitVec.extractLsb'_append_eq_left]

@[simp] theorem dReqSym_word (n : BitVec 4) (y : BitVec 64) : dReqSym (dReqWord n y) = y := by
  simp only [dReqSym, dReqWord, BitVec.extractLsb'_append_eq_right]

@[simp] theorem eRspStatus_word (st : BitVec 2) (n : BitVec 4) (y : BitVec 64) :
    eRspStatus (eRspWord st n y) = st := by
  simp (disch := decide) only [eRspStatus, eRspWord, BitVec.extractLsb'_append_eq_of_le, Nat.reduceSub, BitVec.extractLsb'_eq_self]

@[simp] theorem eRspCnt_word (st : BitVec 2) (n : BitVec 4) (y : BitVec 64) : eRspCnt (eRspWord st n y) = n := by
  simp (disch := decide) only [eRspCnt, eRspWord, BitVec.extractLsb'_append_eq_of_le,
    BitVec.extractLsb'_append_eq_of_add_le, Nat.reduceSub, BitVec.extractLsb'_eq_self]

@[simp] theorem eRspSym_word (st : BitVec 2) (n : BitVec 4) (y : BitVec 64) : eRspSym (eRspWord st n y) = y := by
  simp (disch := decide) only [eRspSym, eRspWord,
    BitVec.extractLsb'_append_eq_of_add_le, BitVec.extractLsb'_eq_self]

@[simp] theorem dRspStatus_word (st : BitVec 2) (e n : BitVec 3) (d : BitVec 40) :
    dRspStatus (dRspWord st e n d) = st := by
  simp (disch := decide) only [dRspStatus, dRspWord, BitVec.extractLsb'_append_eq_of_le, Nat.reduceSub, BitVec.extractLsb'_eq_self]

@[simp] theorem dRspErrIdx_word (st : BitVec 2) (e n : BitVec 3) (d : BitVec 40) :
    dRspErrIdx (dRspWord st e n d) = e := by
  simp (disch := decide) only [dRspErrIdx, dRspWord, BitVec.extractLsb'_append_eq_of_le,
    BitVec.extractLsb'_append_eq_of_add_le, Nat.reduceSub, BitVec.extractLsb'_eq_self]

@[simp] theorem dRspLen_word (st : BitVec 2) (e n : BitVec 3) (d : BitVec 40) :
    dRspLen (dRspWord st e n d) = n := by
  simp (disch := decide) only [dRspLen, dRspWord, BitVec.extractLsb'_append_eq_of_le,
    BitVec.extractLsb'_append_eq_of_add_le, Nat.reduceSub, BitVec.extractLsb'_eq_self]

@[simp] theorem dRspData_word (st : BitVec 2) (e n : BitVec 3) (d : BitVec 40) :
    dRspData (dRspWord st e n d) = d := by
  simp (disch := decide) only [dRspData, dRspWord,
    BitVec.extractLsb'_append_eq_of_add_le, BitVec.extractLsb'_eq_self]

/-! ### The tables -/

/-- `INV` undoes `ALPHA` (10_state.md R27). -/
theorem inv_alpha (g : Group) : inv (alpha g) = ⟨true, g⟩ := by
  revert g; decide

/-- Case does not matter to `INV` (10_state.md R28). -/
theorem inv_fold (c : Sym) : inv (fold c) = inv c := by
  revert c; decide

/-! ### The symbol scan -/

/-- The scan reports lane `j` exactly when the symbol there is invalid and all before it are valid (R88). -/
theorem firstInvalidFrom_eq_some {k j : Nat} {l : List Sym} :
    firstInvalidFrom k l = some j ↔
      ∃ n, j = k + n ∧ ∃ s, l[n]? = some s ∧ (inv s).valid = false ∧
        ∀ m < n, ∀ t, l[m]? = some t → (inv t).valid = true := by
  induction l generalizing k with
  | nil => simp [firstInvalidFrom]
  | cons s rest ih =>
    by_cases hs : (inv s).valid = true
    · rw [firstInvalidFrom, if_pos hs, ih]
      constructor
      · rintro ⟨n, rfl, t, ht, hv, hb⟩
        refine ⟨n + 1, by omega, t, by simpa using ht, hv, ?_⟩
        rintro (_ | m) hm u hu
        · simp at hu; exact hu ▸ hs
        · exact hb m (by omega) u (by simpa using hu)
      · rintro ⟨n, rfl, t, ht, hv, hb⟩
        rcases n with _ | n
        · simp at ht; simp [← ht, hs] at hv
        · exact ⟨n, by omega, t, by simpa using ht, hv, fun m hm u hu =>
            hb (m + 1) (by omega) u (by simpa using hu)⟩
    · rw [firstInvalidFrom, if_neg hs]
      constructor
      · rintro h
        cases h
        exact ⟨0, rfl, s, rfl, by simpa using hs, fun m hm => absurd hm (by omega)⟩
      · rintro ⟨n, rfl, t, ht, hv, hb⟩
        rcases n with _ | n
        · rfl
        · exact absurd (hb 0 (by omega) s rfl) hs

/-- The scan reports nothing exactly when every symbol is valid (R88). -/
theorem firstInvalidFrom_eq_none {k : Nat} {l : List Sym} :
    firstInvalidFrom k l = none ↔ ∀ s ∈ l, (inv s).valid = true := by
  induction l generalizing k with
  | nil => simp [firstInvalidFrom]
  | cons s rest ih =>
    by_cases hs : (inv s).valid = true <;> simp [firstInvalidFrom, hs, ih]

end Sys2Proof.Machine
end

