-- ==== Sys2Proof/Laws/State.lean ====
section
/-! SUPPORT. One lemma per field per update of the state, true by rfl, so that no proof unfolds a record update; then what
the ports' tests say. -/

namespace Sys2Proof.Machine

@[simp] theorem pushEQ_EQ (r : ERsp) (s : State) : (pushEQ r s).EQ = s.EQ ++ [r] := rfl
@[simp] theorem pushEQ_DQ (r : ERsp) (s : State) : (pushEQ r s).DQ = s.DQ := rfl
@[simp] theorem pushEQ_encHeld (r : ERsp) (s : State) : (pushEQ r s).encHeld = s.encHeld := rfl
@[simp] theorem pushEQ_decHeld (r : ERsp) (s : State) : (pushEQ r s).decHeld = s.decHeld := rfl
@[simp] theorem pushEQ_encTaken (r : ERsp) (s : State) : (pushEQ r s).encTaken = s.encTaken := rfl
@[simp] theorem pushEQ_decTaken (r : ERsp) (s : State) : (pushEQ r s).decTaken = s.decTaken := rfl
@[simp] theorem pushEQ_resetLine (r : ERsp) (s : State) : (pushEQ r s).resetLine = s.resetLine := rfl
@[simp] theorem pushEQ_program (r : ERsp) (s : State) : (pushEQ r s).program = s.program := rfl
@[simp] theorem pushEQ_schedule (r : ERsp) (s : State) : (pushEQ r s).schedule = s.schedule := rfl

@[simp] theorem pushDQ_EQ (r : DRsp) (s : State) : (pushDQ r s).EQ = s.EQ := rfl
@[simp] theorem pushDQ_DQ (r : DRsp) (s : State) : (pushDQ r s).DQ = s.DQ ++ [r] := rfl
@[simp] theorem pushDQ_encHeld (r : DRsp) (s : State) : (pushDQ r s).encHeld = s.encHeld := rfl
@[simp] theorem pushDQ_decHeld (r : DRsp) (s : State) : (pushDQ r s).decHeld = s.decHeld := rfl
@[simp] theorem pushDQ_encTaken (r : DRsp) (s : State) : (pushDQ r s).encTaken = s.encTaken := rfl
@[simp] theorem pushDQ_decTaken (r : DRsp) (s : State) : (pushDQ r s).decTaken = s.decTaken := rfl
@[simp] theorem pushDQ_resetLine (r : DRsp) (s : State) : (pushDQ r s).resetLine = s.resetLine := rfl
@[simp] theorem pushDQ_program (r : DRsp) (s : State) : (pushDQ r s).program = s.program := rfl
@[simp] theorem pushDQ_schedule (r : DRsp) (s : State) : (pushDQ r s).schedule = s.schedule := rfl

@[simp] theorem holdEnc_EQ (w : EReq) (s : State) : (holdEnc w s).EQ = s.EQ := rfl
@[simp] theorem holdEnc_DQ (w : EReq) (s : State) : (holdEnc w s).DQ = s.DQ := rfl
@[simp] theorem holdEnc_encHeld (w : EReq) (s : State) : (holdEnc w s).encHeld = some w := rfl
@[simp] theorem holdEnc_decHeld (w : EReq) (s : State) : (holdEnc w s).decHeld = s.decHeld := rfl
@[simp] theorem holdEnc_encTaken (w : EReq) (s : State) : (holdEnc w s).encTaken = s.encTaken := rfl
@[simp] theorem holdEnc_decTaken (w : EReq) (s : State) : (holdEnc w s).decTaken = s.decTaken := rfl
@[simp] theorem holdEnc_resetLine (w : EReq) (s : State) : (holdEnc w s).resetLine = s.resetLine := rfl
@[simp] theorem holdEnc_program (w : EReq) (s : State) : (holdEnc w s).program = s.program := rfl
@[simp] theorem holdEnc_schedule (w : EReq) (s : State) : (holdEnc w s).schedule = s.schedule := rfl

@[simp] theorem holdDec_EQ (w : DReq) (s : State) : (holdDec w s).EQ = s.EQ := rfl
@[simp] theorem holdDec_DQ (w : DReq) (s : State) : (holdDec w s).DQ = s.DQ := rfl
@[simp] theorem holdDec_encHeld (w : DReq) (s : State) : (holdDec w s).encHeld = s.encHeld := rfl
@[simp] theorem holdDec_decHeld (w : DReq) (s : State) : (holdDec w s).decHeld = some w := rfl
@[simp] theorem holdDec_encTaken (w : DReq) (s : State) : (holdDec w s).encTaken = s.encTaken := rfl
@[simp] theorem holdDec_decTaken (w : DReq) (s : State) : (holdDec w s).decTaken = s.decTaken := rfl
@[simp] theorem holdDec_resetLine (w : DReq) (s : State) : (holdDec w s).resetLine = s.resetLine := rfl
@[simp] theorem holdDec_program (w : DReq) (s : State) : (holdDec w s).program = s.program := rfl
@[simp] theorem holdDec_schedule (w : DReq) (s : State) : (holdDec w s).schedule = s.schedule := rfl

@[simp] theorem resetBlock_EQ (s : State) : (resetBlock s).EQ = [] := rfl
@[simp] theorem resetBlock_DQ (s : State) : (resetBlock s).DQ = [] := rfl
@[simp] theorem resetBlock_encHeld (s : State) : (resetBlock s).encHeld = s.encHeld := rfl
@[simp] theorem resetBlock_decHeld (s : State) : (resetBlock s).decHeld = s.decHeld := rfl
@[simp] theorem resetBlock_encTaken (s : State) : (resetBlock s).encTaken = s.encTaken := rfl
@[simp] theorem resetBlock_decTaken (s : State) : (resetBlock s).decTaken = s.decTaken := rfl
@[simp] theorem resetBlock_resetLine (s : State) : (resetBlock s).resetLine = s.resetLine := rfl
@[simp] theorem resetBlock_program (s : State) : (resetBlock s).program = s.program := rfl
@[simp] theorem resetBlock_schedule (s : State) : (resetBlock s).schedule = s.schedule := rfl

@[simp] theorem assertReset_EQ (s : State) : (assertReset s).EQ = [] := rfl
@[simp] theorem assertReset_DQ (s : State) : (assertReset s).DQ = [] := rfl
@[simp] theorem assertReset_encHeld (s : State) : (assertReset s).encHeld = s.encHeld := rfl
@[simp] theorem assertReset_decHeld (s : State) : (assertReset s).decHeld = s.decHeld := rfl
@[simp] theorem assertReset_encTaken (s : State) : (assertReset s).encTaken = s.encTaken := rfl
@[simp] theorem assertReset_decTaken (s : State) : (assertReset s).decTaken = s.decTaken := rfl
@[simp] theorem assertReset_resetLine (s : State) : (assertReset s).resetLine = true := rfl
@[simp] theorem assertReset_program (s : State) : (assertReset s).program = s.program := rfl
@[simp] theorem assertReset_schedule (s : State) : (assertReset s).schedule = s.schedule := rfl

@[simp] theorem releaseReset_EQ (s : State) : (releaseReset s).EQ = [] := rfl
@[simp] theorem releaseReset_DQ (s : State) : (releaseReset s).DQ = [] := rfl
@[simp] theorem releaseReset_encHeld (s : State) : (releaseReset s).encHeld = s.encHeld := rfl
@[simp] theorem releaseReset_decHeld (s : State) : (releaseReset s).decHeld = s.decHeld := rfl
@[simp] theorem releaseReset_encTaken (s : State) : (releaseReset s).encTaken = s.encTaken := rfl
@[simp] theorem releaseReset_decTaken (s : State) : (releaseReset s).decTaken = s.decTaken := rfl
@[simp] theorem releaseReset_resetLine (s : State) : (releaseReset s).resetLine = false := rfl
@[simp] theorem releaseReset_program (s : State) : (releaseReset s).program = s.program := rfl
@[simp] theorem releaseReset_schedule (s : State) : (releaseReset s).schedule = s.schedule := rfl

/-! ### Ports -/

@[simp] theorem portFree_enc (s : State) : portFree .enc s = s.encHeld.isNone := rfl
@[simp] theorem portFree_dec (s : State) : portFree .dec s = s.decHeld.isNone := rfl

theorem present_enc_free {w : EReq} {s : State} (h : s.encHeld = none) : present (.enc w) s = holdEnc w s := by
  simp [present, PortWord.unit, h]

theorem present_dec_free {w : DReq} {s : State} (h : s.decHeld = none) : present (.dec w) s = holdDec w s := by
  simp [present, PortWord.unit, h]

theorem present_enc_occupied {w v : EReq} {s : State} (h : s.encHeld = some v) : present (.enc w) s = s := by
  simp [present, PortWord.unit, h]

theorem present_dec_occupied {w v : DReq} {s : State} (h : s.decHeld = some v) : present (.dec w) s = s := by
  simp [present, PortWord.unit, h]

end Sys2Proof.Machine
end

