-- ==== Sys2Proof/Laws/Ops.lean ====
section
/-! SUPPORT. What each shared operation can do, said once: accepting, delivering, fetching, and every meaning as the
acceptance of its word with a response that B32CORE can produce. -/

namespace Sys2Proof.Machine

/-! ### Accept -/

theorem encReady_iff {d : Nat} {s : State} : encReady d s = true ↔ s.resetLine = false ∧ s.EQ.length < d := by
  simp [encReady]

theorem decReady_iff {d : Nat} {s : State} : decReady d s = true ↔ s.resetLine = false ∧ s.DQ.length < d := by
  simp [decReady]

theorem acceptEnc_ready {w : EReq} {r : ERsp} {s : State} (h : encReady Config.encDepth s = true) :
    acceptEnc w r s = .next (pushEQ r s) := by
  simp [acceptEnc, acceptEncAt, h]

theorem acceptEnc_held {w : EReq} {r : ERsp} {s : State} (h : encReady Config.encDepth s = false) :
    acceptEnc w r s = .next (holdEnc w s) := by
  simp [acceptEnc, acceptEncAt, h]

theorem acceptDec_ready {w : DReq} {r : DRsp} {s : State} (h : decReady Config.decDepth s = true) :
    acceptDec w r s = .next (pushDQ r s) := by
  simp [acceptDec, acceptDecAt, h]

theorem acceptDec_held {w : DReq} {r : DRsp} {s : State} (h : decReady Config.decDepth s = false) :
    acceptDec w r s = .next (holdDec w s) := by
  simp [acceptDec, acceptDecAt, h]

/-- Accepting an encoder request queues its response or holds the request, nothing else (R38, R50). -/
theorem acceptEnc_cases {w : EReq} {r : ERsp} {s t : State} (h : acceptEnc w r s = .next t) :
    (encReady Config.encDepth s = true ∧ t = pushEQ r s) ∨
      (encReady Config.encDepth s = false ∧ t = holdEnc w s) := by
  cases hr : encReady Config.encDepth s
  · rw [acceptEnc_held hr] at h; cases h; exact .inr ⟨rfl, rfl⟩
  · rw [acceptEnc_ready hr] at h; cases h; exact .inl ⟨rfl, rfl⟩

/-- Accepting a decoder request queues its response or holds the request, nothing else (R38, R50). -/
theorem acceptDec_cases {w : DReq} {r : DRsp} {s t : State} (h : acceptDec w r s = .next t) :
    (decReady Config.decDepth s = true ∧ t = pushDQ r s) ∨
      (decReady Config.decDepth s = false ∧ t = holdDec w s) := by
  cases hr : decReady Config.decDepth s
  · rw [acceptDec_held hr] at h; cases h; exact .inr ⟨rfl, rfl⟩
  · rw [acceptDec_ready hr] at h; cases h; exact .inl ⟨rfl, rfl⟩

/-! ### Deliver -/

/-- When a delivery answers a next state, the host waited or took the oldest response (R39). -/
theorem deliverEnc_cases {s t : State} (h : deliverEnc s = .next t) :
    (t = s ∧ (s.resetLine = true ∨ s.EQ = [])) ∨
      ∃ r rs, s.resetLine = false ∧ s.EQ = r :: rs ∧ eRspFault r = none ∧
        t = { s with EQ := rs, encTaken := s.encTaken ++ [r] } := by
  unfold deliverEnc at h
  split at h
  · cases h; exact .inl ⟨rfl, .inl ‹_›⟩
  · split at h
    · cases h; exact .inl ⟨rfl, .inr ‹_›⟩
    · split at h
      · cases h
      · cases h; exact .inr ⟨_, _, Bool.eq_false_iff.mpr ‹_›, ‹_›, ‹_›, rfl⟩

/-- When a delivery answers a next state, the host waited or took the oldest response (R39). -/
theorem deliverDec_cases {s t : State} (h : deliverDec s = .next t) :
    (t = s ∧ (s.resetLine = true ∨ s.DQ = [])) ∨
      ∃ r rs, s.resetLine = false ∧ s.DQ = r :: rs ∧ dRspFault r = none ∧
        t = { s with DQ := rs, decTaken := s.decTaken ++ [r] } := by
  unfold deliverDec at h
  split at h
  · cases h; exact .inl ⟨rfl, .inl ‹_›⟩
  · split at h
    · cases h; exact .inl ⟨rfl, .inr ‹_›⟩
    · split at h
      · cases h
      · cases h; exact .inr ⟨_, _, Bool.eq_false_iff.mpr ‹_›, ‹_›, ‹_›, rfl⟩

/-- A delivery stops only on an impossible response at the head of the queue (30_encoding.md R64). -/
theorem deliverEnc_stops {s : State} (h : ∀ t, deliverEnc s ≠ .next t) :
    ∃ f r rs, s.resetLine = false ∧ s.EQ = r :: rs ∧ eRspFault r = some f ∧ deliverEnc s = .fault f := by
  unfold deliverEnc at h ⊢
  split at h
  · exact absurd rfl (h s)
  · split at h
    · exact absurd rfl (h s)
    · split at h
      · simp_all
      · exact absurd rfl (h _)

/-- A delivery stops only on an impossible response at the head of the queue (30_encoding.md R64). -/
theorem deliverDec_stops {s : State} (h : ∀ t, deliverDec s ≠ .next t) :
    ∃ f r rs, s.resetLine = false ∧ s.DQ = r :: rs ∧ dRspFault r = some f ∧ deliverDec s = .fault f := by
  unfold deliverDec at h ⊢
  split at h
  · exact absurd rfl (h s)
  · split at h
    · exact absurd rfl (h s)
    · split at h
      · simp_all
      · exact absurd rfl (h _)

/-! ### Fetch -/

theorem fetchEnc_none {s : State} (h : s.encHeld = none) : fetchEnc s = .settled (.next s) := by
  simp [fetchEnc, h]

theorem fetchEnc_some {s : State} {w : EReq} (h : s.encHeld = some w) :
    fetchEnc s = .run (decodeEReq w) { s with encHeld := none } := by
  simp [fetchEnc, h, decodeWord]

theorem fetchDec_none {s : State} (h : s.decHeld = none) : fetchDec s = .settled (.next s) := by
  simp [fetchDec, h]

theorem fetchDec_some {s : State} {w : DReq} (h : s.decHeld = some w) :
    fetchDec s = .run (decodeDReq w) { s with decHeld := none } := by
  simp [fetchDec, h, decodeWord]

/-! ### The host's turn -/

/-- The host's next statement is the first of its program, the host is free to go on, and the statement can run. -/
theorem hostNext_eq_some {h : HostStyle} {s : State} {st : HostStmt} {p : List HostStmt} :
    hostNext h s = some (st, p) ↔ s.program = st :: p ∧ hostFree h s = true ∧ stmtReady st s = true := by
  unfold hostNext
  constructor
  · intro hn
    split at hn
    · cases hn
    · split at hn
      · cases hn; exact ⟨‹_›, by simpa using ‹(hostFree h s && _) = true›⟩
      · cases hn
  · rintro ⟨hp, hf, hr⟩
    simp [hp, hf, hr]

theorem hostNext_ended {h : HostStyle} {s : State} (hp : s.program = []) : hostNext h s = none := by
  simp [hostNext, hp]

theorem hostNext_not_free {h : HostStyle} {s : State} (hf : hostFree h s = false) : hostNext h s = none := by
  unfold hostNext
  split
  · rfl
  · simp [hf]

theorem hostNext_not_ready {h : HostStyle} {s : State} {st : HostStmt} {p : List HostStmt} (hp : s.program = st :: p)
    (hr : stmtReady st s = false) : hostNext h s = none := by
  simp [hostNext, hp, hr]

/-- The choice of the host's next statement does not look at the schedule. -/
@[simp] theorem hostNext_schedule (h : HostStyle) (s : State) (es : List Event) :
    hostNext h { s with schedule := es } = hostNext h s := by
  rcases s with ⟨_, _, _, _, _, _, _, p, _⟩
  cases p with
  | nil => rfl
  | cons st p => cases st <;> rfl

/-! ### Possible responses -/

theorem eRspFault_encOk {gs : List Group} (h : gs.length ∈ [0, 2, 4, 5, 7, 8]) : eRspFault (encOk gs) = none := by
  have hl : gs.length < 16 := by
    simp only [List.mem_cons, List.not_mem_nil, or_false] at h
    omega
  simp only [eRspFault, encOk, eRspStatus_word, eRspCnt_word, BitVec.toNat_ofNat, Nat.mod_eq_of_lt hl, if_pos h]
  decide

theorem eRspFault_encIllegal : eRspFault encIllegal = none := by decide

theorem dRspFault_decIllegal : dRspFault decIllegal = none := by decide

theorem dRspFault_decInvalid (k : Nat) : dRspFault (decInvalid k) = none := by
  simp only [dRspFault, decInvalid, dRspStatus_word, dRspLen_word]
  decide

theorem dRspFault_decOk {bs : List Byte} (h : bs.length ≤ 5) : dRspFault (decOk bs) = none := by
  have hl : bs.length < 8 := by omega
  simp only [dRspFault, decOk, dRspStatus_word, dRspLen_word, BitVec.toNat_ofNat, Nat.mod_eq_of_lt hl, if_pos h]
  decide

theorem dRspFault_decAnswer {input : List Sym} {bs : List Byte} (h : bs.length ≤ 5) :
    dRspFault (decAnswer input bs) = none := by
  unfold decAnswer
  split
  · exact dRspFault_decInvalid _
  · exact dRspFault_decOk h

/-! ### Every meaning is the acceptance of its word -/

/-- What an encoder form can do: its word is accepted with one possible response, the same in every state, or held. -/
theorem exec_enc {i : Instr} {w : EReq} (h : encode i = .enc w) :
    ∃ r, eRspFault r = none ∧ ∀ s, exec i s = acceptEnc w r s := by
  cases i <;> cases h
  case enc0 => exact ⟨_, eRspFault_encOk (by simp), fun _ => rfl⟩
  case enc1 => exact ⟨_, eRspFault_encOk (by simp), fun _ => rfl⟩
  case enc2 => exact ⟨_, eRspFault_encOk (by simp), fun _ => rfl⟩
  case enc3 => exact ⟨_, eRspFault_encOk (by simp), fun _ => rfl⟩
  case enc4 => exact ⟨_, eRspFault_encOk (by simp), fun _ => rfl⟩
  case enc5 => exact ⟨_, eRspFault_encOk (by simp), fun _ => rfl⟩
  case encIll6 => exact ⟨_, eRspFault_encIllegal, fun _ => rfl⟩
  case encIll7 => exact ⟨_, eRspFault_encIllegal, fun _ => rfl⟩

/-- What a decoder form can do: its word is accepted with one possible response, the same in every state, or held. -/
theorem exec_dec {i : Instr} {w : DReq} (h : encode i = .dec w) :
    ∃ r, dRspFault r = none ∧ ∀ s, exec i s = acceptDec w r s := by
  cases i <;> cases h
  case dec0 => exact ⟨_, dRspFault_decAnswer (by simp), fun _ => rfl⟩
  case dec1 => exact ⟨_, dRspFault_decAnswer (by simp), fun _ => rfl⟩
  case dec2 => exact ⟨_, dRspFault_decAnswer (by simp), fun _ => rfl⟩
  case dec3 => exact ⟨_, dRspFault_decAnswer (by simp), fun _ => rfl⟩
  case dec4 => exact ⟨_, dRspFault_decAnswer (by simp), fun _ => rfl⟩
  case dec5 => exact ⟨_, dRspFault_decAnswer (by simp), fun _ => rfl⟩
  case dec6 => exact ⟨_, dRspFault_decAnswer (by simp), fun _ => rfl⟩
  case dec7 => exact ⟨_, dRspFault_decAnswer (by simp), fun _ => rfl⟩
  case dec8 => exact ⟨_, dRspFault_decAnswer (by simp), fun _ => rfl⟩
  case decIll9 => exact ⟨_, dRspFault_decIllegal, fun _ => rfl⟩
  case decIll10 => exact ⟨_, dRspFault_decIllegal, fun _ => rfl⟩
  case decIll11 => exact ⟨_, dRspFault_decIllegal, fun _ => rfl⟩
  case decIll12 => exact ⟨_, dRspFault_decIllegal, fun _ => rfl⟩
  case decIll13 => exact ⟨_, dRspFault_decIllegal, fun _ => rfl⟩
  case decIll14 => exact ⟨_, dRspFault_decIllegal, fun _ => rfl⟩
  case decIll15 => exact ⟨_, dRspFault_decIllegal, fun _ => rfl⟩

end Sys2Proof.Machine
end

