-- ==== Sys2Proof/Laws/PerInstr.lean ====
section
/-! SUPPORT. The family FormMap: each form's word travels on the form's port and its count field holds the form's
number (spec 30_encoding.md R59, R60). One lemma per constructor of Instr. -/

namespace Sys2Proof.Laws.FormMap

open Sys2Proof.Machine

/-- The field that selects the form: `LEN` of an encoder request, `CNT` of a decoder request (R59, R60). -/
def selector : PortWord → Nat
  | .enc w => (eReqLen w).toNat
  | .dec w => (dReqCnt w).toNat

/-- The port and the number of a form in the form map (R59, R60). -/
def place : Instr → UnitId × Nat
  | .enc0 _ => (.enc, 0)
  | .enc1 _ _ => (.enc, 1)
  | .enc2 _ _ _ => (.enc, 2)
  | .enc3 _ _ _ _ => (.enc, 3)
  | .enc4 _ _ _ _ _ => (.enc, 4)
  | .enc5 _ _ _ _ _ => (.enc, 5)
  | .encIll6 _ => (.enc, 6)
  | .encIll7 _ => (.enc, 7)
  | .dec0 _ => (.dec, 0)
  | .dec1 _ _ => (.dec, 1)
  | .dec2 _ _ _ => (.dec, 2)
  | .dec3 _ _ _ _ => (.dec, 3)
  | .dec4 _ _ _ _ _ => (.dec, 4)
  | .dec5 _ _ _ _ _ _ => (.dec, 5)
  | .dec6 _ _ _ _ _ _ _ => (.dec, 6)
  | .dec7 _ _ _ _ _ _ _ _ => (.dec, 7)
  | .dec8 _ _ _ _ _ _ _ _ => (.dec, 8)
  | .decIll9 _ => (.dec, 9)
  | .decIll10 _ => (.dec, 10)
  | .decIll11 _ => (.dec, 11)
  | .decIll12 _ => (.dec, 12)
  | .decIll13 _ => (.dec, 13)
  | .decIll14 _ => (.dec, 14)
  | .decIll15 _ => (.dec, 15)

/-- The word of a form is on its port and selects it. -/
def Statement (i : Instr) : Prop := ((encode i).unit, selector (encode i)) = place i

theorem enc0 (x : BitVec 40) : Statement (.enc0 x) := by
  simp [Statement, encode, PortWord.unit, selector, place]

theorem enc1 (b0 : Byte) (x : BitVec 32) : Statement (.enc1 b0 x) := by
  simp [Statement, encode, PortWord.unit, selector, place]

theorem enc2 (b0 b1 : Byte) (x : BitVec 24) : Statement (.enc2 b0 b1 x) := by
  simp [Statement, encode, PortWord.unit, selector, place]

theorem enc3 (b0 b1 b2 : Byte) (x : BitVec 16) : Statement (.enc3 b0 b1 b2 x) := by
  simp [Statement, encode, PortWord.unit, selector, place]

theorem enc4 (b0 b1 b2 b3 : Byte) (x : BitVec 8) : Statement (.enc4 b0 b1 b2 b3 x) := by
  simp [Statement, encode, PortWord.unit, selector, place]

theorem enc5 (b0 b1 b2 b3 b4 : Byte) : Statement (.enc5 b0 b1 b2 b3 b4) := by
  simp [Statement, encode, PortWord.unit, selector, place]

theorem encIll6 (x : BitVec 40) : Statement (.encIll6 x) := by
  simp [Statement, encode, PortWord.unit, selector, place]

theorem encIll7 (x : BitVec 40) : Statement (.encIll7 x) := by
  simp [Statement, encode, PortWord.unit, selector, place]

theorem dec0 (x : BitVec 64) : Statement (.dec0 x) := by
  simp [Statement, encode, PortWord.unit, selector, place]

theorem dec1 (s0 : Sym) (x : BitVec 56) : Statement (.dec1 s0 x) := by
  simp [Statement, encode, PortWord.unit, selector, place]

theorem dec2 (s0 s1 : Sym) (x : BitVec 48) : Statement (.dec2 s0 s1 x) := by
  simp [Statement, encode, PortWord.unit, selector, place]

theorem dec3 (s0 s1 s2 : Sym) (x : BitVec 40) : Statement (.dec3 s0 s1 s2 x) := by
  simp [Statement, encode, PortWord.unit, selector, place]

theorem dec4 (s0 s1 s2 s3 : Sym) (x : BitVec 32) : Statement (.dec4 s0 s1 s2 s3 x) := by
  simp [Statement, encode, PortWord.unit, selector, place]

theorem dec5 (s0 s1 s2 s3 s4 : Sym) (x : BitVec 24) : Statement (.dec5 s0 s1 s2 s3 s4 x) := by
  simp [Statement, encode, PortWord.unit, selector, place]

theorem dec6 (s0 s1 s2 s3 s4 s5 : Sym) (x : BitVec 16) : Statement (.dec6 s0 s1 s2 s3 s4 s5 x) := by
  simp [Statement, encode, PortWord.unit, selector, place]

theorem dec7 (s0 s1 s2 s3 s4 s5 s6 : Sym) (x : BitVec 8) : Statement (.dec7 s0 s1 s2 s3 s4 s5 s6 x) := by
  simp [Statement, encode, PortWord.unit, selector, place]

theorem dec8 (s0 s1 s2 s3 s4 s5 s6 s7 : Sym) : Statement (.dec8 s0 s1 s2 s3 s4 s5 s6 s7) := by
  simp [Statement, encode, PortWord.unit, selector, place]

theorem decIll9 (x : BitVec 64) : Statement (.decIll9 x) := by
  simp [Statement, encode, PortWord.unit, selector, place]

theorem decIll10 (x : BitVec 64) : Statement (.decIll10 x) := by
  simp [Statement, encode, PortWord.unit, selector, place]

theorem decIll11 (x : BitVec 64) : Statement (.decIll11 x) := by
  simp [Statement, encode, PortWord.unit, selector, place]

theorem decIll12 (x : BitVec 64) : Statement (.decIll12 x) := by
  simp [Statement, encode, PortWord.unit, selector, place]

theorem decIll13 (x : BitVec 64) : Statement (.decIll13 x) := by
  simp [Statement, encode, PortWord.unit, selector, place]

theorem decIll14 (x : BitVec 64) : Statement (.decIll14 x) := by
  simp [Statement, encode, PortWord.unit, selector, place]

theorem decIll15 (x : BitVec 64) : Statement (.decIll15 x) := by
  simp [Statement, encode, PortWord.unit, selector, place]

end Sys2Proof.Laws.FormMap
end

