-- ==== Sys2Proof/Laws/Step.lean ====
section
/-! SUPPORT. What a step does for each event at the head of the schedule, and runs taken apart. -/

namespace Sys2Proof.Machine

/-! ### The next event -/

theorem nextEvent_cons {s : State} {e : Event} {es : List Event} (h : s.schedule = e :: es) : s.nextEvent = some e := by
  simp [State.nextEvent, h]

theorem nextEvent_nil {s : State} (h : s.schedule = []) : s.nextEvent = fairEvent s := by
  simp [State.nextEvent, h]

/-- Nobody moves exactly when the block is quiet. -/
theorem nextEvent_eq_none {s : State} : s.nextEvent = none ↔ s.Quiet := by
  unfold State.nextEvent State.Quiet fairEvent
  constructor
  · intro h
    split at h
    · refine ⟨‹_›, ?_⟩
      split at h <;> try cases h
      split at h <;> try cases h
      split at h <;> try cases h
      rename_i h1 h2 h3
      refine ⟨fun u => ?_, by simpa using h3⟩
      cases u
      · exact Bool.eq_false_iff.mpr h1
      · exact Bool.eq_false_iff.mpr h2
    · cases h
  · rintro ⟨hs, hc, hh⟩
    simp [hs, hc, hh]

/-! ### What a step does for each event -/

theorem step_quiet {s : State} (h : s.nextEvent = none) : step s = .next s := by
  simp [step, act, h]

theorem step_event {s : State} {e : Event} (h : s.nextEvent = some e) :
    step s = match actEvent e { s with schedule := s.schedule.tail } with
      | .run i t => exec i t
      | .settled o => o := by
  simp only [step, act, h] <;> rfl

theorem step_present {s : State} {w : PortWord} (h : s.nextEvent = some (.present w)) :
    step s = .next (present w { s with schedule := s.schedule.tail }) := by
  simp [step_event h, actEvent]

theorem step_host {s : State} {g : HostStyle} (h : s.nextEvent = some (.host g)) :
    step s = hostTurn g { s with schedule := s.schedule.tail } := by
  simp [step_event h, actEvent]

theorem step_acceptEnc {s : State} {w : EReq} (h : s.nextEvent = some (.transfer (.accept .enc)))
    (hw : s.encHeld = some w) :
    step s = exec (decodeEReq w) { s with encHeld := none, schedule := s.schedule.tail } := by
  simp [step_event h, actEvent, fetchEnc, hw, decodeWord]

theorem step_acceptDec {s : State} {w : DReq} (h : s.nextEvent = some (.transfer (.accept .dec)))
    (hw : s.decHeld = some w) :
    step s = exec (decodeDReq w) { s with decHeld := none, schedule := s.schedule.tail } := by
  simp [step_event h, actEvent, fetchDec, hw, decodeWord]

theorem step_acceptEnc_none {s : State} (h : s.nextEvent = some (.transfer (.accept .enc))) (hw : s.encHeld = none) :
    step s = .next { s with schedule := s.schedule.tail } := by
  simp [step_event h, actEvent, fetchEnc, hw]

theorem step_acceptDec_none {s : State} (h : s.nextEvent = some (.transfer (.accept .dec))) (hw : s.decHeld = none) :
    step s = .next { s with schedule := s.schedule.tail } := by
  simp [step_event h, actEvent, fetchDec, hw]

theorem step_deliver {s : State} {u : UnitId} (h : s.nextEvent = some (.transfer (.deliver u))) :
    step s = deliver u { s with schedule := s.schedule.tail } := by
  simp [step_event h, actEvent]

theorem step_reset {s : State} {x : Option Transfer} (h : s.nextEvent = some (.reset x)) :
    step s = .next (resetBlock { s with schedule := s.schedule.tail }) := by
  simp [step_event h, actEvent]

theorem step_assertReset {s : State} (h : s.nextEvent = some .assertReset) :
    step s = .next (assertReset { s with schedule := s.schedule.tail }) := by
  simp [step_event h, actEvent]

theorem step_releaseReset {s : State} (h : s.nextEvent = some .releaseReset) :
    step s = .next (releaseReset { s with schedule := s.schedule.tail }) := by
  simp [step_event h, actEvent]

/-! ### What a step can do -/

/-- The move of an event `e` that is no acceptance, from `s` to `t`: a wait, a word on a free port, a delivery of the
oldest response, or a reset. -/
inductive Moves (s : State) (e : Event) : State → Prop where
  | waits (hp : presentedBy e s = none) (hr : resetsBy e s = false) : Moves s e { s with schedule := s.schedule.tail }
  | asksEnc (w : EReq) (p : List HostStmt) (hp : presentedBy e s = some (.enc w)) (hr : resetsBy e s = false)
      (hf : s.encHeld = none) : Moves s e { s with encHeld := some w, program := p, schedule := s.schedule.tail }
  | asksDec (w : DReq) (p : List HostStmt) (hp : presentedBy e s = some (.dec w)) (hr : resetsBy e s = false)
      (hf : s.decHeld = none) : Moves s e { s with decHeld := some w, program := p, schedule := s.schedule.tail }
  | givesEnc (r : ERsp) (rs : List ERsp) (p : List HostStmt) (hp : presentedBy e s = none) (hr : resetsBy e s = false)
      (hd : deliversBy e s = some .enc) (hl : s.resetLine = false) (hq : s.EQ = r :: rs) (hf : eRspFault r = none) :
      Moves s e { s with EQ := rs, encTaken := s.encTaken ++ [r], program := p, schedule := s.schedule.tail }
  | givesDec (r : DRsp) (rs : List DRsp) (p : List HostStmt) (hp : presentedBy e s = none) (hr : resetsBy e s = false)
      (hd : deliversBy e s = some .dec) (hl : s.resetLine = false) (hq : s.DQ = r :: rs) (hf : dRspFault r = none) :
      Moves s e { s with DQ := rs, decTaken := s.decTaken ++ [r], program := p, schedule := s.schedule.tail }
  | resets (l : Bool) (p : List HostStmt) (hp : presentedBy e s = none) (hr : resetsBy e s = true) :
      Moves s e { s with EQ := [], DQ := [], resetLine := l, program := p, schedule := s.schedule.tail }

/-- A delivery is a wait or hands over the oldest response, whoever asks for it and with whatever program is left. -/
theorem deliver_moves {s t : State} {e : Event} {u : UnitId} {p : List HostStmt}
    (hp : presentedBy e s = none) (hr : resetsBy e s = false) (hd : deliversBy e s = some u)
    (hw : p = s.program ∨ canDeliver u s = true)
    (h : deliver u { s with program := p, schedule := s.schedule.tail } = .next t) : Moves s e t := by
  cases u
  · rcases deliverEnc_cases h with ⟨rfl, hn⟩ | ⟨r, rs, hl, hq, hf, rfl⟩
    · rcases hw with rfl | hw
      · exact .waits hp hr
      · rcases hn with hn | hn <;> simp [canDeliver, encRspValid] at hw hn <;> simp_all
    · exact .givesEnc r rs p hp hr hd hl hq hf
  · rcases deliverDec_cases h with ⟨rfl, hn⟩ | ⟨r, rs, hl, hq, hf, rfl⟩
    · rcases hw with rfl | hw
      · exact .waits hp hr
      · rcases hn with hn | hn <;> simp [canDeliver, decRspValid] at hw hn <;> simp_all
    · exact .givesDec r rs p hp hr hd hl hq hf

/-- A word comes to stand on its free port. -/
theorem present_moves {s : State} {e : Event} {w : PortWord} {p : List HostStmt} (hp : presentedBy e s = some w)
    (hr : resetsBy e s = false) (hf : portFree w.unit s = true) :
    Moves s e (present w { s with program := p, schedule := s.schedule.tail }) := by
  cases w with
  | enc w =>
    have hf : s.encHeld = none := by simpa [PortWord.unit] using hf
    rw [present_enc_free (s := { s with program := p, schedule := s.schedule.tail }) hf]
    exact .asksEnc w p hp hr hf
  | dec w =>
    have hf : s.decHeld = none := by simpa [PortWord.unit] using hf
    rw [present_dec_free (s := { s with program := p, schedule := s.schedule.tail }) hf]
    exact .asksDec w p hp hr hf

/-- The host's turn is a wait or runs its next statement. -/
theorem hostTurn_moves {s t : State} {g : HostStyle}
    (h : hostTurn g { s with schedule := s.schedule.tail } = .next t) : Moves s (.host g) t := by
  unfold hostTurn at h
  rw [hostNext_schedule] at h
  cases hn : hostNext g s with
  | none =>
    rw [hn] at h; cases h
    exact .waits (by simp [presentedBy, hn]) (by simp [resetsBy, hn])
  | some x =>
    obtain ⟨st, p⟩ := x
    rw [hn] at h
    obtain ⟨-, -, hr⟩ := hostNext_eq_some.mp hn
    cases st with
    | request i =>
      cases h
      exact present_moves (by simp [presentedBy, hn]) (by simp [resetsBy, hn]) hr
    | take u =>
      exact deliver_moves (by simp [presentedBy, hn]) (by simp [resetsBy, hn]) (by simp [deliversBy, hn])
        (.inr hr) h
    | reset =>
      cases h
      exact .resets s.resetLine p (by simp [presentedBy, hn]) (by simp [resetsBy, hn])

/-- What a step can do: nobody moves, a held request is tried, or the next event makes one of its moves. -/
theorem step_cases {s t : State} (h : step s = .next t) :
    (s.nextEvent = none ∧ t = s) ∨
      (∃ w, s.nextEvent = some (.transfer (.accept .enc)) ∧ s.encHeld = some w ∧
        exec (decodeEReq w) { s with encHeld := none, schedule := s.schedule.tail } = .next t) ∨
      (∃ w, s.nextEvent = some (.transfer (.accept .dec)) ∧ s.decHeld = some w ∧
        exec (decodeDReq w) { s with decHeld := none, schedule := s.schedule.tail } = .next t) ∨
      ∃ e, s.nextEvent = some e ∧ Moves s e t := by
  cases hn : s.nextEvent with
  | none => rw [step_quiet hn] at h; cases h; exact .inl ⟨rfl, rfl⟩
  | some e =>
    refine .inr ?_
    rcases e with w | g | ((_ | _) | u) | x | _ | _
    · rw [step_present hn] at h; cases h
      refine .inr (.inr ⟨_, rfl, ?_⟩)
      cases hf : portFree w.unit s with
      | true => exact present_moves (p := s.program) (by simp [presentedBy, hf]) rfl hf
      | false =>
        have : present w { s with schedule := s.schedule.tail } = { s with schedule := s.schedule.tail } := by
          unfold present
          exact if_neg (fun h => Bool.noConfusion (hf.symm.trans (by cases w <;> exact h)))
        rw [this]; exact .waits (by simp [presentedBy, hf]) rfl
    · rw [step_host hn] at h; exact .inr (.inr ⟨_, rfl, hostTurn_moves h⟩)
    · cases hw : s.encHeld with
      | none =>
        rw [step_acceptEnc_none hn hw] at h; cases h
        refine .inr (.inr ⟨_, rfl, ?_⟩)
        simpa only [hw] using Moves.waits (s := s) (e := .transfer (.accept .enc)) rfl rfl
      | some w => exact .inl ⟨w, rfl, rfl, by rw [← step_acceptEnc hn hw]; exact h⟩
    · cases hw : s.decHeld with
      | none =>
        rw [step_acceptDec_none hn hw] at h; cases h
        refine .inr (.inr ⟨_, rfl, ?_⟩)
        simpa only [hw] using Moves.waits (s := s) (e := .transfer (.accept .dec)) rfl rfl
      | some w => exact .inr (.inl ⟨w, rfl, rfl, by rw [← step_acceptDec hn hw]; exact h⟩)
    · rw [step_deliver hn] at h
      exact .inr (.inr ⟨_, rfl, deliver_moves (p := s.program) rfl rfl rfl (.inl rfl) h⟩)
    · rw [step_reset hn] at h; cases h
      exact .inr (.inr ⟨_, rfl, .resets s.resetLine s.program rfl rfl⟩)
    · rw [step_assertReset hn] at h; cases h
      exact .inr (.inr ⟨_, rfl, .resets true s.program rfl rfl⟩)
    · rw [step_releaseReset hn] at h; cases h
      exact .inr (.inr ⟨_, rfl, .resets false s.program rfl rfl⟩)

/-! ### Runs -/

@[simp] theorem runSteps_zero (s : State) : runSteps 0 s = .next s := rfl

theorem runSteps_succ {k : Nat} {s t : State} (h : step s = .next t) : runSteps (k + 1) s = runSteps k t := by
  simp [runSteps, h]

/-- A run of `j + k` steps is a run of `k` steps from where the first `j` lead. -/
theorem runSteps_add {j k : Nat} {s t : State} (h : runSteps j s = .next t) : runSteps (j + k) s = runSteps k t := by
  induction j generalizing s with
  | zero => cases h; simp
  | succ j ih =>
    rw [Nat.succ_add]
    simp only [runSteps] at h ⊢
    split at h
    · rename_i u hu
      exact ih h
    · cases h
    · cases h

/-- An invariant that every step keeps holds wherever a run leads. -/
theorem runSteps_keeps {P : State → Prop} (hstep : ∀ s t, P s → step s = .next t → P t) {k : Nat} {s t : State}
    (hs : P s) (h : runSteps k s = .next t) : P t := by
  induction k generalizing s with
  | zero => cases h; exact hs
  | succ k ih =>
    simp only [runSteps] at h
    split at h
    · rename_i u hu
      exact ih (hstep s u hs hu) h
    · cases h
    · cases h

/-- The host's own run of the machine is `runSteps`. -/
theorem core_run (k : Nat) (s : State) : Host.Core.run Sys2Proof.core k s = runSteps k s := by
  induction k generalizing s with
  | zero => rfl
  | succ k ih =>
    cases h : step s with
    | next t =>
      rw [runSteps, h]
      refine Eq.trans (Host.Core.run.eq_2 Sys2Proof.core _ _) ?_
      rw [show Sys2Proof.core.step s = .next t from h]
      exact ih t
    | fault f =>
      rw [runSteps, h]
      refine Eq.trans (Host.Core.run.eq_2 Sys2Proof.core _ _) ?_
      rw [show Sys2Proof.core.step s = .fault f from h]
      rfl
    | refused r =>
      rw [runSteps, h]
      refine Eq.trans (Host.Core.run.eq_2 Sys2Proof.core _ _) ?_
      rw [show Sys2Proof.core.step s = .refused r from h]
      rfl

end Sys2Proof.Machine
end

