-- ==== Sys2Proof/Tests/Slice0.lean ====
section
/-! SUPPORT. The model's own tests. Expected values are the spec's: words laid out by the form map (spec
30_encoding.md), vectors of 95_test_vectors.md (named VE, VD, T, S, P there), tables of 10_state.md. Then, for every
statement of Certificates/Slice0/Obligations.lean that has hypotheses, a witness that meets them. -/

namespace Sys2Proof.Tests

open Sys2Proof Sys2Proof.Machine

/-! ### Decoding: one word per constructor, written out from the form map (R59, R60)

The top hexadecimal digit is `LEN` or `CNT`; each lane is two digits, lane 0 first (R54, R56, R57). -/

theorem test_decode_enc0 : decodeTableWord 48 0x01234567890 = some (.enc0 0x1234567890) := by decide
theorem test_decode_enc1 : decodeTableWord 48 0x1AABBCCDDEE = some (.enc1 0xAA 0xBBCCDDEE) := by decide
theorem test_decode_enc2 : decodeTableWord 48 0x2AABBCCDDEE = some (.enc2 0xAA 0xBB 0xCCDDEE) := by decide
theorem test_decode_enc3 : decodeTableWord 48 0x3AABBCCDDEE = some (.enc3 0xAA 0xBB 0xCC 0xDDEE) := by decide
theorem test_decode_enc4 : decodeTableWord 48 0x4AABBCCDDEE = some (.enc4 0xAA 0xBB 0xCC 0xDD 0xEE) := by decide
theorem test_decode_enc5 : decodeTableWord 48 0x5AABBCCDDEE = some (.enc5 0xAA 0xBB 0xCC 0xDD 0xEE) := by decide
theorem test_decode_encIll6 : decodeTableWord 48 0x6AABBCCDDEE = some (.encIll6 0xAABBCCDDEE) := by decide
theorem test_decode_encIll7 : decodeTableWord 48 0x7AABBCCDDEE = some (.encIll7 0xAABBCCDDEE) := by decide
theorem test_decode_dec0 : decodeTableWord 72 0x0A1B2C3D4E5F60718 =
    some (.dec0 0xA1B2C3D4E5F60718) := by decide
theorem test_decode_dec1 : decodeTableWord 72 0x1A1B2C3D4E5F60718 =
    some (.dec1 0xA1 0xB2C3D4E5F60718) := by decide
theorem test_decode_dec2 : decodeTableWord 72 0x2A1B2C3D4E5F60718 =
    some (.dec2 0xA1 0xB2 0xC3D4E5F60718) := by decide
theorem test_decode_dec3 : decodeTableWord 72 0x3A1B2C3D4E5F60718 =
    some (.dec3 0xA1 0xB2 0xC3 0xD4E5F60718) := by decide
theorem test_decode_dec4 : decodeTableWord 72 0x4A1B2C3D4E5F60718 =
    some (.dec4 0xA1 0xB2 0xC3 0xD4 0xE5F60718) := by decide
theorem test_decode_dec5 : decodeTableWord 72 0x5A1B2C3D4E5F60718 =
    some (.dec5 0xA1 0xB2 0xC3 0xD4 0xE5 0xF60718) := by decide
theorem test_decode_dec6 : decodeTableWord 72 0x6A1B2C3D4E5F60718 =
    some (.dec6 0xA1 0xB2 0xC3 0xD4 0xE5 0xF6 0x0718) := by decide
theorem test_decode_dec7 : decodeTableWord 72 0x7A1B2C3D4E5F60718 =
    some (.dec7 0xA1 0xB2 0xC3 0xD4 0xE5 0xF6 0x07 0x18) := by decide
theorem test_decode_dec8 : decodeTableWord 72 0x8A1B2C3D4E5F60718 =
    some (.dec8 0xA1 0xB2 0xC3 0xD4 0xE5 0xF6 0x07 0x18) := by decide
theorem test_decode_decIll9 : decodeTableWord 72 0x9A1B2C3D4E5F60718 =
    some (.decIll9 0xA1B2C3D4E5F60718) := by decide
theorem test_decode_decIll10 : decodeTableWord 72 0xAA1B2C3D4E5F60718 =
    some (.decIll10 0xA1B2C3D4E5F60718) := by decide
theorem test_decode_decIll11 : decodeTableWord 72 0xBA1B2C3D4E5F60718 =
    some (.decIll11 0xA1B2C3D4E5F60718) := by decide
theorem test_decode_decIll12 : decodeTableWord 72 0xCA1B2C3D4E5F60718 =
    some (.decIll12 0xA1B2C3D4E5F60718) := by decide
theorem test_decode_decIll13 : decodeTableWord 72 0xDA1B2C3D4E5F60718 =
    some (.decIll13 0xA1B2C3D4E5F60718) := by decide
theorem test_decode_decIll14 : decodeTableWord 72 0xEA1B2C3D4E5F60718 =
    some (.decIll14 0xA1B2C3D4E5F60718) := by decide
theorem test_decode_decIll15 : decodeTableWord 72 0xFA1B2C3D4E5F60718 =
    some (.decIll15 0xA1B2C3D4E5F60718) := by decide

/-- `CNT` has sixteen values, and the decoder's last arm is met by 0b1111 alone. -/
theorem test_cnt_values : ∀ c : BitVec 4, c.toNat < 15 ∨ c = 0b1111#4 := by decide

/-- Bit by bit (R54): `LEN` = 001, byte lane 0 = 11111111, 32 don't-care bits. -/
theorem test_ereq_bits : decodeEReq (0b001#3 ++ 0b11111111#8 ++ 0b00000000000000000000000000000000#32) =
    .enc1 0xFF 0 := by decide

/-- Bit by bit (R57): `CNT` = 0010, lanes 0 and 1 = `Z`, `W`, 48 don't-care bits. -/
theorem test_dreq_bits : decodeDReq (0b0010#4 ++ 0b01011010#8 ++ 0b01010111#8 ++ 0#48) = .dec2 0x5A 0x57 0 := by
  decide

/-- A number of more than 43 bits is no `EReq`, one of more than 68 no `DReq`; each is rejected by name (R53). -/
theorem test_reject_ereq : decodeNumber .enc 0x80000000000 = .error .widerThanEReq := by rfl
theorem test_reject_dreq : decodeNumber .dec 0x100000000000000000 = .error .widerThanDReq := by rfl
theorem test_reject_table : decodeTableWord 48 0x80000000000 = none ∧ decodeTableWord 72 0x100000000000000000 = none := by
  decide

/-! ### WellFormed

No term of Instr is ill-formed (R38 "Every request word is accepted"), so the check has no clause to refuse one. What can
be ill-formed is a response word: one per clause of R64, each refused by the response check. -/

theorem test_wf_all (i : Instr) : i.wf = true := by cases i <;> rfl

theorem test_smoke_enc_status_reserved : eRspFault (eRspWord 0b11 0 0) = some .reservedStatus := by decide
theorem test_smoke_enc_status_invalid : eRspFault (eRspWord 0b01 0 0) = some .encInvalidSymbolStatus := by decide
theorem test_smoke_enc_counts : ∀ n ∈ ([1, 3, 6, 9, 10, 11, 12, 13, 14, 15] : List (BitVec 4)),
    eRspFault (eRspWord 0b00 n 0) = some .encImpossibleCount := by decide
theorem test_smoke_enc_legal_counts : ∀ n ∈ ([0, 2, 4, 5, 7, 8] : List (BitVec 4)),
    eRspFault (eRspWord 0b00 n 0) = none := by decide
theorem test_smoke_dec_status_reserved : dRspFault (dRspWord 0b11 0 0 0) = some .reservedStatus := by decide
theorem test_smoke_dec_lengths : ∀ n ∈ ([6, 7] : List (BitVec 3)),
    dRspFault (dRspWord 0b00 0 n 0) = some .decImpossibleLength := by decide
theorem test_smoke_dec_legal_lengths : ∀ n ∈ ([0, 1, 2, 3, 4, 5] : List (BitVec 3)),
    dRspFault (dRspWord 0b01 7 n 0) = none := by decide

/-! ### The constant tables (10_state.md) -/

/-- R21: the alphabet string, by its characters. -/
theorem test_alpha : alphabet = "0123456789ABCDEFGHJKMNPQRSTVWXYZ".toList.map (fun c => BitVec.ofNat 8 c.toNat) := by
  decide

/-- R22: the 32 codes are distinct. -/
theorem test_alpha_distinct : alphabet.Nodup := by decide

/-- The values of 26 codes from `a` on, 32 for an invalid one. -/
def valuesFrom (a : Nat) (n : Nat) : List Nat :=
  (List.range n).map fun k => let e := inv (BitVec.ofNat 8 (a + k)); if e.valid then e.value.toNat else 32

/-- R25, its three columns: digits, upper case, lower case (`U` and `u` are invalid, R26). -/
theorem test_inv_digits : valuesFrom 0x30 10 = [0, 1, 2, 3, 4, 5, 6, 7, 8, 9] := by decide
theorem test_inv_upper : valuesFrom 0x41 26 =
    [10, 11, 12, 13, 14, 15, 16, 17, 1, 18, 19, 1, 20, 21, 0, 22, 23, 24, 25, 26, 32, 27, 28, 29, 30, 31] := by decide
theorem test_inv_lower : valuesFrom 0x61 26 = valuesFrom 0x41 26 := by decide

/-- R26: every other code is invalid, with value 0 (R24). -/
theorem test_inv_others : ∀ c : Sym, (inv c = ⟨false, 0⟩) ↔ InvalidCode c := by
  unfold InvalidCode
  decide

/-! ### One step per form, from reset (95_test_vectors.md sections 2.2 and 2.3) -/

/-- The step that runs the encoder request `w` first after reset leaves `r` in `EQ` and nothing else changed. -/
def encGives (w : Nat) (r : ERsp) : Bool :=
  match step (State.reset.withFetchWord 48 w) with
  | .next t => decide (t = pushEQ r State.reset)
  | .fault _ => false
  | .refused _ => false

/-- The step that runs the decoder request `w` first after reset leaves `r` in `DQ` and nothing else changed. -/
def decGives (w : Nat) (r : DRsp) : Bool :=
  match step (State.reset.withFetchWord 72 w) with
  | .next t => decide (t = pushDQ r State.reset)
  | .fault _ => false
  | .refused _ => false

theorem test_enc0_VE1 : encGives 0x00000000000 0x000000000000000000 = true := by decide
theorem test_enc0_VE2 : encGives 0x0FFFFFFFFFF 0x000000000000000000 = true := by decide
theorem test_enc1_VE4 : encGives 0x1FF00000000 0x025A57000000000000 = true := by decide
theorem test_enc1_VE8 : encGives 0x1FFFFFFFFFF 0x025A57000000000000 = true := by decide
theorem test_enc2_VE9 : encGives 0x21234000000 0x043238543000000000 = true := by decide
theorem test_enc2_VE12 : encGives 0x20001000000 0x043030304700000000 = true := by decide
theorem test_enc3_VE13 : encGives 0x31234560000 0x053238543543000000 = true := by decide
theorem test_enc3_VE15 : encGives 0x30000010000 0x053030303032000000 = true := by decide
theorem test_enc4_VE18 : encGives 0x40000000100 0x073030303030303800 = true := by decide
theorem test_enc4_VE19 : encGives 0x412345678FF 0x073238543543593000 = true := by decide
theorem test_enc5_VE20 : encGives 0x5F83E0F83E0 0x085A305A305A305A30 = true := by decide
theorem test_enc5_VE22 : encGives 0x50123456789 0x083034484D41535739 = true := by decide
theorem test_encIll6_VE29 : encGives 0x6FFFFFFFFFF 0x200000000000000000 = true := by decide
theorem test_encIll7_VE31 : encGives 0x7FFFFFFFFFF 0x200000000000000000 = true := by decide
theorem test_dec0_VD2 : decGives 0x0FFFFFFFFFFFFFFFF 0x000000000000 = true := by decide
theorem test_dec1_VD3 : decGives 0x15A00000000000000 0x000000000000 = true := by decide
theorem test_dec1_VD4 : decGives 0x15500000000000000 0x400000000000 = true := by decide
theorem test_dec2_VD8 : decGives 0x25A5A000000000000 0x01FF00000000 = true := by decide
theorem test_dec2_VD11 : decGives 0x25A57555555555555 0x01FF00000000 = true := by decide
theorem test_dec3_VD14 : decGives 0x349304F0000000000 0x010800000000 = true := by decide
theorem test_dec3_VD15 : decGives 0x35A5A550000000000 0x500000000000 = true := by decide
theorem test_dec4_VD16 : decGives 0x43238543000000000 0x021234000000 = true := by decide
theorem test_dec4_VD18 : decGives 0x47A7A7A6700000000 0x02FFFF000000 = true := by decide
theorem test_dec5_VD20 : decGives 0x53238543543000000 0x031234560000 = true := by decide
theorem test_dec5_VD21 : decGives 0x53238543555000000 0x600000000000 = true := by decide
theorem test_dec6_VD22 : decGives 0x649694C6C4F6F0000 0x030842100000 = true := by decide
theorem test_dec6_VD24 : decGives 0x65A5A5A5A5A550000 0x680000000000 = true := by decide
theorem test_dec7_VD26 : decGives 0x73238543543593000 0x041234567800 = true := by decide
theorem test_dec8_VD31 : decGives 0x86373717079726B6C 0x05666F6F6261 = true := by decide
theorem test_dec8_VD35 : decGives 0x83055302C30303030 0x480000000000 = true := by decide
theorem test_decIll9_VD47 : decGives 0x95555555555555555 0x800000000000 = true := by decide
theorem test_decIll10_VD41 : decGives 0xA3030303030303030 0x800000000000 = true := by decide
theorem test_decIll11_VD42 : decGives 0xB3030303030303030 0x800000000000 = true := by decide
theorem test_decIll12_VD43 : decGives 0xC3030303030303030 0x800000000000 = true := by decide
theorem test_decIll13_VD44 : decGives 0xD3030303030303030 0x800000000000 = true := by decide
theorem test_decIll14_VD45 : decGives 0xE3030303030303030 0x800000000000 = true := by decide
theorem test_decIll15_VD46 : decGives 0xF3030303030303030 0x800000000000 = true := by decide
/-- Seven input lanes with an invalid last one (R106): not in the spec's vectors, from R89 and R94 by hand. -/
theorem test_dec7_last_invalid : decGives 0x75A5A5A5A5A5A5530 0x700000000000 = true := by decide

/-! ### The transitions (95_test_vectors.md section 2.6) -/

/-- `EQ=[0x025A57000000000000]`, the start state of most rows. -/
def oneQueued : State := pushEQ 0x025A57000000000000 State.reset

/-- The response to `EReq 0x21234000000`. -/
def rsp2 : ERsp := encChunk 0x21234000000

theorem test_T1 : acceptEncAt 1 0x1FF00000000 (encChunk 0x1FF00000000) State.reset = oneQueued := by decide
theorem test_T2 : acceptEncAt 1 0x21234000000 rsp2 oneQueued = { oneQueued with encHeld := some 0x21234000000 } := by
  decide
theorem test_T3 : acceptDecAt 1 0x25A57000000000000 (decChunk 0x25A57000000000000) oneQueued =
    { oneQueued with DQ := [0x01FF00000000] } := by decide
theorem test_T4 : deliverDec { oneQueued with DQ := [0x01FF00000000] } =
    .next { oneQueued with decTaken := [0x01FF00000000] } := by rfl
theorem test_T5 : deliverDec oneQueued = .next oneQueued := by rfl
theorem test_T6 : resetBlock oneQueued = State.reset := by decide
theorem test_T7 : acceptEncAt 1 0x21234000000 rsp2 (assertReset State.reset) =
    { State.reset with resetLine := true, encHeld := some 0x21234000000 } := by decide
theorem test_T8 : acceptEncAt 2 0x21234000000 rsp2 oneQueued =
    { State.reset with EQ := [0x025A57000000000000, 0x043238543000000000] } := by decide
theorem test_T9 : deliverEnc { State.reset with EQ := [0x025A57000000000000, 0x043238543000000000] } =
    .next { State.reset with EQ := [0x043238543000000000], encTaken := [0x025A57000000000000] } := by rfl
theorem test_T10 : decGives 0x9FFFFFFFFFFFFFFFF 0x800000000000 = true := by decide
theorem test_T11 : step { oneQueued with schedule := [.reset (some (.deliver .enc))] } = .next State.reset := by rfl
theorem test_T12 : step { State.reset with EQ := [0x300000000000000000], schedule := [.transfer (.deliver .enc)] } =
    .fault .reservedStatus := by rfl

/-- The response-valid line follows the queue (R33). -/
theorem test_rsp_valid : encRspValid oneQueued = true ∧ encRspValid State.reset = false ∧ decRspValid oneQueued = false ∧
    decRspValid { oneQueued with DQ := [0] } = true := by decide

/-! ### The host's turn (95_test_vectors.md section 3) -/

/-- P4 statement 5: `take enc` with nothing queued waits, also when the host takes turns of its own. -/
theorem test_P4_take_waits : step { State.reset with program := [.take .enc] } =
    .next { State.reset with program := [.take .enc] } := step_quiet (by decide)

/-- P4 statement 3: a host that goes on resets while its request is held, and the request stays held. -/
theorem test_P4_reset_while_held :
    step { oneQueued with encHeld := some 0x21234000000, program := [.reset], schedule := [.host .overlapping] } =
      .next { State.reset with encHeld := some 0x21234000000 } := by rfl

/-- R69: a host that waits does not go on while its request is held. -/
theorem test_waiting_host_waits :
    step { oneQueued with encHeld := some 0x21234000000, program := [.take .enc], schedule := [.host .waiting] } =
      .next { oneQueued with encHeld := some 0x21234000000, program := [.take .enc] } := by rfl

/-- P2 at depth 1: a host that goes on takes a response while its next request is held. -/
theorem test_P2_take_while_held :
    step { oneQueued with encHeld := some 0x21234000000, program := [.take .enc], schedule := [.host .overlapping] } =
      .next { State.reset with encHeld := some 0x21234000000, encTaken := [0x025A57000000000000] } := by rfl

/-- R50: a port holds one word; a second request for it waits in the program. -/
theorem test_port_holds_one :
    step { State.reset with
      encHeld := some 0x21234000000, program := [.request (.enc0 0)], schedule := [.host .overlapping] } =
      .next { State.reset with encHeld := some 0x21234000000, program := [.request (.enc0 0)] } := by rfl

/-- With no event scheduled a held request is accepted (R51). -/
theorem test_fair_accept :
    ({ State.reset with encHeld := some 0x21234000000 } : State).nextEvent = some (.transfer (.accept .enc)) := by decide

/-! ### Text (30_encoding.md R68-R70) -/

theorem test_text_enc2 : readRequest "ENC2 [0x12, 0x34]".toList = some (decodeEReq 0x21234000000) := by decide
theorem test_text_dec8 : readRequest "DEC8 \"Z0Z0Z0Z0\"".toList = some (decodeDReq 0x85A305A305A305A30) := by decide
theorem test_text_raw : readRequest "ENC4.raw 0x12345678FF".toList = some (decodeEReq 0x412345678FF) := by decide
theorem test_text_codes : readRequest "DEC1 [0x00]".toList = some (decodeDReq 0x10000000000000000) := by decide
theorem test_text_ill : readRequest "DEC.ILL15 0x3030303030303030".toList = some (decodeDReq 0xF3030303030303030) := by
  decide
theorem test_text_wrong_count : readRequest "ENC2 [0x12]".toList = none ∧ readRequest "DEC9 \"000000000\"".toList = none := by
  decide
theorem test_text_statements : readProgram ["enc: ENC1 [0xFF]".toList, "take enc".toList, "RESET".toList] =
    some [.request (.enc1 0xFF 0), .take .enc, .reset] := by decide
theorem test_text_pseudo : readLine "DECODE \"ZW\"".toList = some [.request (.dec2 0x5A 0x57 0), .take .dec] := by decide
theorem test_listing_enc : eRspText 0x085A305A305A305A30 = some "ERsp OK CNT=8 \"Z0Z0Z0Z0\"".toList := by decide
theorem test_listing_enc_ill : eRspText 0x200000000000000000 = some "ERsp ILLEGAL_REQUEST".toList := by decide
theorem test_listing_dec : dRspText 0x05F83E0F83E0 = some "DRsp OK LEN=5 [F8 3E 0F 83 E0]".toList := by decide
theorem test_listing_dec_invalid : dRspText 0x480000000000 = some "DRsp INVALID_SYMBOL ERRIDX=1".toList := by decide

/-! ### Messages (95_test_vectors.md section 2.5) -/

/-- The codes of a text (00_scope.md R12). -/
def text (t : String) : List Sym := t.toList.map fun c => BitVec.ofNat 8 c.toNat

theorem test_encode_foobar : encodeMessage [0x66, 0x6F, 0x6F, 0x62, 0x61, 0x72] = text "CSQPYRK1E8" := by decide
theorem test_encode_bits_foobar : encodeBits [0x66, 0x6F, 0x6F, 0x62, 0x61, 0x72] = text "CSQPYRK1E8" := by decide
theorem test_encode_empty : encodeMessage [] = [] ∧ decodeMessage [] = some [] := by decide
theorem test_decode_foobar : decodeMessage (text "cSqPyRkLe8") = some [0x66, 0x6F, 0x6F, 0x62, 0x61, 0x72] := by decide
theorem test_decode_bits_foobar : decodeBits (text "cSqPyRkLe8") = some [0x66, 0x6F, 0x6F, 0x62, 0x61, 0x72] := by decide
theorem test_decode_invalid : decodeMessage (text "CSQPYRK1EU") = none ∧ decodeMessage (text "CSQPYRK1-E8") = none := by
  decide
theorem test_decode_discards : decodeMessage (text "ZZZ") = some [0xFF] ∧ decodeMessage (text "Z") = some [] := by decide
/-- P3: the first invalid symbol is at position 9. -/
theorem test_error_position : errorPosition ((decodeRequests (text "CSQPYRK1EU")).map decChunk) = some 9 := by decide

/-! ### Witnesses: states and operands that meet the statements' hypotheses -/

/-- Enc0AnswersNothing, Enc1..Enc5AnswersItsSymbols, EncIllegalFormsAnswered, ResponseDependsOnRequestAlone: ENC can
accept after reset. -/
theorem witness_encReady : State.reset.EncReady := ⟨rfl, Nat.succ_pos _⟩

/-- Dec0AnswersNothing, Dec1..Dec8AnswersItsBytes, DecIllegalFormsAnswered, ResponseDependsOnRequestAlone: DEC can
accept after reset. -/
theorem witness_decReady : State.reset.DecReady := ⟨rfl, Nat.succ_pos _⟩

/-- A queue filled to its depth, whatever the depth. -/
def encFull : State := { State.reset with EQ := List.replicate Config.encDepth 0x025A57000000000000 }
def decFull : State := { State.reset with DQ := List.replicate Config.decDepth 0x01FF00000000 }

theorem firstInvalidAt_of_scan {l : List Sym} {k : Nat} (h : firstInvalid l = some k) : FirstInvalidAt l k := by
  obtain ⟨n, hn, s, hs, hv, hb⟩ := firstInvalidFrom_eq_some.mp h
  obtain rfl : k = n := by omega
  exact ⟨s, hs, hv, hb⟩

theorem allValid_of_scan {l : List Sym} (h : firstInvalid l = none) : AllValid l := firstInvalidFrom_eq_none.mp h

/-- Dec0AnswersNothing: the empty input is valid (the INVALID_SYMBOL clause never applies to it). -/
theorem witness_dec0_valid : AllValid [] := allValid_of_scan (by decide)

/-- Dec1AnswersItsBytes: valid input; invalid in the last lane and in the first. -/
theorem witness_dec1_symbols : AllValid [0x5A] ∧ FirstInvalidAt [0x55] 0 :=
  ⟨allValid_of_scan (by decide), firstInvalidAt_of_scan (by decide)⟩

/-- Dec2AnswersItsBytes: valid input; invalid in the last lane and in the first. -/
theorem witness_dec2_symbols : AllValid [0x5A, 0x5A] ∧ FirstInvalidAt [0x5A, 0x55] 1 ∧
    FirstInvalidAt [0x55, 0x5A] 0 :=
  ⟨allValid_of_scan (by decide), firstInvalidAt_of_scan (by decide), firstInvalidAt_of_scan (by decide)⟩

/-- Dec3AnswersItsBytes: valid input; invalid in the last lane and in the first. -/
theorem witness_dec3_symbols : AllValid [0x5A, 0x5A, 0x5A] ∧ FirstInvalidAt [0x5A, 0x5A, 0x55] 2 ∧
    FirstInvalidAt [0x55, 0x5A, 0x5A] 0 :=
  ⟨allValid_of_scan (by decide), firstInvalidAt_of_scan (by decide), firstInvalidAt_of_scan (by decide)⟩

/-- Dec4AnswersItsBytes: valid input; invalid in the last lane and in the first. -/
theorem witness_dec4_symbols : AllValid [0x5A, 0x5A, 0x5A, 0x5A] ∧ FirstInvalidAt [0x5A, 0x5A, 0x5A, 0x55] 3 ∧
    FirstInvalidAt [0x55, 0x5A, 0x5A, 0x5A] 0 :=
  ⟨allValid_of_scan (by decide), firstInvalidAt_of_scan (by decide), firstInvalidAt_of_scan (by decide)⟩

/-- Dec5AnswersItsBytes: valid input; invalid in the last lane and in the first. -/
theorem witness_dec5_symbols : AllValid [0x5A, 0x5A, 0x5A, 0x5A, 0x5A] ∧ FirstInvalidAt [0x5A, 0x5A, 0x5A, 0x5A, 0x55] 4 ∧
    FirstInvalidAt [0x55, 0x5A, 0x5A, 0x5A, 0x5A] 0 :=
  ⟨allValid_of_scan (by decide), firstInvalidAt_of_scan (by decide), firstInvalidAt_of_scan (by decide)⟩

/-- Dec6AnswersItsBytes: valid input; invalid in the last lane and in the first. -/
theorem witness_dec6_symbols : AllValid [0x5A, 0x5A, 0x5A, 0x5A, 0x5A, 0x5A] ∧ FirstInvalidAt [0x5A, 0x5A, 0x5A, 0x5A, 0x5A, 0x55] 5 ∧
    FirstInvalidAt [0x55, 0x5A, 0x5A, 0x5A, 0x5A, 0x5A] 0 :=
  ⟨allValid_of_scan (by decide), firstInvalidAt_of_scan (by decide), firstInvalidAt_of_scan (by decide)⟩

/-- Dec7AnswersItsBytes: valid input; invalid in the last lane and in the first. -/
theorem witness_dec7_symbols : AllValid [0x5A, 0x5A, 0x5A, 0x5A, 0x5A, 0x5A, 0x5A] ∧ FirstInvalidAt [0x5A, 0x5A, 0x5A, 0x5A, 0x5A, 0x5A, 0x55] 6 ∧
    FirstInvalidAt [0x55, 0x5A, 0x5A, 0x5A, 0x5A, 0x5A, 0x5A] 0 :=
  ⟨allValid_of_scan (by decide), firstInvalidAt_of_scan (by decide), firstInvalidAt_of_scan (by decide)⟩

/-- Dec8AnswersItsBytes: valid input; invalid in the last lane and in the first. -/
theorem witness_dec8_symbols : AllValid [0x5A, 0x5A, 0x5A, 0x5A, 0x5A, 0x5A, 0x5A, 0x5A] ∧ FirstInvalidAt [0x5A, 0x5A, 0x5A, 0x5A, 0x5A, 0x5A, 0x5A, 0x55] 7 ∧
    FirstInvalidAt [0x55, 0x5A, 0x5A, 0x5A, 0x5A, 0x5A, 0x5A, 0x5A] 0 :=
  ⟨allValid_of_scan (by decide), firstInvalidAt_of_scan (by decide), firstInvalidAt_of_scan (by decide)⟩

/-- EncIllegalFormsAnswered and DecIllegalFormsAnswered: the two ends of each list of forms. -/
theorem witness_illegal_forms : ((.encIll6 0 : Instr) = .encIll6 0 ∨ (.encIll6 0 : Instr) = .encIll7 0) ∧
    ((.encIll7 0 : Instr) = .encIll6 0 ∨ (.encIll7 0 : Instr) = .encIll7 0) ∧
    (.decIll9 0 : Instr) ∈ [.decIll9 0, .decIll10 0, .decIll11 0, .decIll12 0, .decIll13 0, .decIll14 0, .decIll15 0] ∧
    (.decIll15 0 : Instr) ∈ [.decIll9 0, .decIll10 0, .decIll11 0, .decIll12 0, .decIll13 0, .decIll14 0, .decIll15 0] := by
  decide

/-- EncFormsAnswerEncChunk, at the smallest and the largest `LEN`. -/
theorem witness_EncFormsAnswerEncChunk : encode (.enc0 0) = .enc 0 ∧ encode (.encIll7 0) = .enc 0x70000000000 ∧
    State.reset.EncReady := ⟨by decide, by decide, witness_encReady⟩

/-- DecFormsAnswerDecChunk, at the smallest and the largest `CNT`. -/
theorem witness_DecFormsAnswerDecChunk : encode (.dec0 0) = .dec 0 ∧ encode (.decIll15 0) = .dec 0xF0000000000000000 ∧
    State.reset.DecReady := ⟨by decide, by decide, witness_decReady⟩

/-- UnacceptedRequestIsHeld: a full queue, and reset asserted, for each unit. -/
theorem witness_UnacceptedRequestIsHeld : encode (.enc1 0xFF 0) = .enc 0x1FF00000000 ∧ ¬ encFull.EncReady ∧
    ¬ (assertReset State.reset).EncReady ∧ encode (.dec1 0x5A 0) = .dec 0x15A00000000000000 ∧ ¬ decFull.DecReady ∧
    ¬ (assertReset State.reset).DecReady := by
  refine ⟨by decide, ?_, ?_, by decide, ?_, ?_⟩ <;> rintro ⟨h, h'⟩
  · simp [encFull] at h'
  · cases h
  · simp [decFull] at h'
  · cases h

/-- A request held on each port, a response queued in each unit, reset released. -/
def busy (es : List Event) : State :=
  { State.reset with
    encHeld := some 0x21234000000, decHeld := some 0x23030000000000000
    EQ := [0x025A57000000000000], DQ := [0x01FF00000000], schedule := es }

/-- StepRunsAcceptedRequest: its four clauses. -/
theorem witness_StepRunsAcceptedRequest :
    ((busy [.transfer (.accept .enc)]).schedule = [.transfer (.accept .enc)] ∧
      (busy [.transfer (.accept .enc)]).encHeld = some 0x21234000000) ∧
    ({ State.reset with schedule := [.transfer (.accept .enc)] } : State).encHeld = none ∧
    ((busy [.transfer (.accept .dec)]).schedule = [.transfer (.accept .dec)] ∧
      (busy [.transfer (.accept .dec)]).decHeld = some 0x23030000000000000) ∧
    ({ State.reset with schedule := [.transfer (.accept .dec)] } : State).decHeld = none := by decide

/-- FetchWordRunsNext: a word of each port, at the largest number of the port, on a free port. -/
theorem witness_FetchWordRunsNext : (decodeTableWord 48 0x7FFFFFFFFFF = some (.encIll7 0xFFFFFFFFFF) ∧
      tablePort 48 = .enc ∧ portFree (tablePort 48) State.reset = true) ∧
    decodeTableWord 72 0xFFFFFFFFFFFFFFFFF = some (.decIll15 0xFFFFFFFFFFFFFFFF) ∧
    tablePort 72 = .dec ∧ portFree (tablePort 72) State.reset = true := by decide

/-- DeliverHandsOverTheOldest: its four clauses. -/
theorem witness_DeliverHandsOverTheOldest :
    ((busy [.transfer (.deliver .enc)]).resetLine = false ∧ (busy [.transfer (.deliver .enc)]).EQ = [0x025A57000000000000] ∧
      eRspFault 0x025A57000000000000 = none) ∧
    State.reset.EQ = [] ∧
    ((busy [.transfer (.deliver .dec)]).resetLine = false ∧ (busy [.transfer (.deliver .dec)]).DQ = [0x01FF00000000] ∧
      dRspFault 0x01FF00000000 = none) ∧
    State.reset.DQ = [] ∧ State.reset.resetLine = false := by decide

/-- Reset asserted with a request held on each port, the queues empty: it meets the invariant. -/
def inReset (es : List Event) : State :=
  { State.reset with
    encHeld := some 0x21234000000, decHeld := some 0x23030000000000000, resetLine := true, schedule := es }

theorem witness_inReset_Inv (es : List Event) : (inReset es).Inv :=
  ⟨Nat.zero_le _, Nat.zero_le _, by simp [inReset, State.reset], by simp [inReset, State.reset], fun _ => ⟨rfl, rfl⟩⟩

/-- NoTransferWhileResetAsserted, with a request held that would otherwise be accepted, in the invariant. -/
theorem witness_NoTransferWhileResetAsserted : (inReset [.transfer (.accept .enc)]).resetLine = true ∧
    (inReset [.transfer (.accept .enc)]).schedule = [.transfer (.accept .enc)] ∧
    (inReset [.transfer (.accept .enc)]).Inv := ⟨rfl, rfl, witness_inReset_Inv _⟩

/-- ResetDiscardsAndWins: alone, together with a transfer, and asserted, each with a response queued. -/
theorem witness_ResetDiscardsAndWins : (busy [.reset none]).schedule = [.reset none] ∧
    (busy [.reset (some (.deliver .enc))]).schedule = [.reset (some (.deliver .enc))] ∧
    (busy [.assertReset]).schedule = [.assertReset] ∧ (busy []).EQ ≠ [] := by decide

/-- ReleasedResetLeavesUnitsReady: reset asserted, in the invariant. -/
theorem witness_ReleasedResetLeavesUnitsReady : (inReset [.releaseReset]).schedule = [.releaseReset] ∧
    (inReset [.releaseReset]).resetLine = true ∧ (inReset [.releaseReset]).Inv := ⟨rfl, rfl, witness_inReset_Inv _⟩

/-- A host program with the host's turn next, from reset. -/
def hosting (h : HostStyle) (p : List HostStmt) : State := { State.reset with program := p, schedule := [.host h] }

/-- PresentedRequestWaitsItsTurn: a word presented on a free and on an occupied port of each unit; the host's turn with no
program, with a request held, with each statement able to run and waiting; a quiet block. -/
theorem witness_PresentedRequestWaitsItsTurn :
    ({ State.reset with schedule := [.present (.enc 0)] } : State).encHeld = none ∧
    (busy [.present (.enc 0)]).encHeld = some 0x21234000000 ∧
    ({ State.reset with schedule := [.present (.dec 0)] } : State).decHeld = none ∧
    (busy [.present (.dec 0)]).decHeld = some 0x23030000000000000 ∧
    (hosting .waiting []).program = [] ∧
    ((busy [.host .waiting]).encHeld ≠ none ∧ (busy [.host .waiting]).decHeld ≠ none) ∧
    ((hosting .waiting [.request (.enc1 0xFF 0)]).encHeld = none ∧
      (hosting .waiting [.request (.enc1 0xFF 0)]).decHeld = none ∧ encode (.enc1 0xFF 0) = .enc 0x1FF00000000) ∧
    encode (.dec1 0x5A 0) = .dec 0x15A00000000000000 ∧
    ({ busy [.host .overlapping] with program := [.take .enc] } : State).EQ = [0x025A57000000000000] ∧
    (hosting .waiting [.take .enc]).EQ = [] ∧ eRspFault 0x025A57000000000000 = none ∧
    ({ busy [.host .overlapping] with program := [.take .dec] } : State).DQ = [0x01FF00000000] ∧
    (hosting .waiting [.take .dec]).DQ = [] ∧ dRspFault 0x01FF00000000 = none := by decide

theorem witness_Quiet : State.reset.Quiet := nextEvent_eq_none.mp (by decide)

/-- The next step stops with this fault. -/
def faultsWith (s : State) (f : Fault) : Bool :=
  match step s with
  | .next _ => false
  | .fault g => decide (g = f)
  | .refused _ => false

/-- StepFaultsExactlyOnImpossibleResponse: a fault for each clause at the ends of its range, and none beside it. -/
theorem witness_StepFaultsExactlyOnImpossibleResponse :
    eRspFault (eRspWord 0b11 0 0) = some .reservedStatus ∧ eRspFault (eRspWord 0b01 0 0) = some .encInvalidSymbolStatus ∧
    dRspFault (dRspWord 0b11 0 0 0) = some .reservedStatus ∧
    faultsWith { State.reset with EQ := [0x0F0000000000000000], schedule := [.transfer (.deliver .enc)] }
      .encImpossibleCount = true ∧
    faultsWith { State.reset with DQ := [0x060000000000], schedule := [.transfer (.deliver .dec)] }
      .decImpossibleLength = true :=
  ⟨by decide, by decide, by decide, by decide, by decide⟩

theorem next_of_encGives {w : Nat} {r : ERsp} (h : encGives w r = true) :
    ∃ t, step (State.reset.withFetchWord 48 w) = .next t := by
  unfold encGives at h
  split at h
  · exact ⟨_, ‹_›⟩
  · cases h
  · cases h

theorem next_of_decGives {w : Nat} {r : DRsp} (h : decGives w r = true) :
    ∃ t, step (State.reset.withFetchWord 72 w) = .next t := by
  unfold decGives at h
  split at h
  · exact ⟨_, ‹_›⟩
  · cases h
  · cases h

/-- UnitTransfersLeaveTheOtherUnit: each of its four kinds of step answers a next state. -/
theorem witness_UnitTransfersLeaveTheOtherUnit :
    (∃ t, step (State.reset.withFetchWord 48 0x1FF00000000) = .next t) ∧
    (∃ t, step (busy [.transfer (.deliver .enc)]) = .next t) ∧
    (∃ t, step (State.reset.withFetchWord 72 0x15A00000000000000) = .next t) ∧
    ∃ t, step (busy [.transfer (.deliver .dec)]) = .next t :=
  ⟨next_of_encGives test_enc1_VE4, ⟨_, rfl⟩, next_of_decGives test_dec1_VD3, _, rfl⟩

/-- UnitTransfersCommute, EveryStepKeepsInvariant, InvariantRunsNeverStop, FairRoundsDrainBothUnits: a state that meets
the invariant with work in both units. -/
theorem witness_Inv (es : List Event) : (busy es).Inv :=
  ⟨Nat.succ_le_succ (Nat.zero_le _), Nat.succ_le_succ (Nat.zero_le _),
    by simp only [busy, List.forall_mem_singleton]; decide, by simp only [busy, List.forall_mem_singleton]; decide,
    fun h => Bool.noConfusion h⟩

/-- UnitTransfersCommute: a pair of transfers, one of each unit. -/
theorem witness_UnitTransfersCommute : (.accept .enc : Transfer) ∈ [.accept .enc, .deliver .enc] ∧
    (.deliver .dec : Transfer) ∈ [.accept .dec, .deliver .dec] ∧ (busy []).Inv := ⟨by decide, by decide, witness_Inv _⟩

/-- EveryStepKeepsInvariant: a step from that state. -/
theorem witness_EveryStepKeepsInvariant : (busy [.transfer (.deliver .enc)]).Inv ∧
    ∃ t, step (busy [.transfer (.deliver .enc)]) = .next t := ⟨witness_Inv _, _, rfl⟩

/-- EveryStepKeepsGenuine: queued responses that answer requests, and a step. -/
theorem witness_EveryStepKeepsGenuine : (busy [.transfer (.deliver .enc)]).Genuine ∧
    ∃ t, step (busy [.transfer (.deliver .enc)]) = .next t := by
  refine ⟨⟨fun r hr => ⟨0x1FF00000000, ?_⟩, fun r hr => ⟨0x25A57000000000000, ?_⟩⟩, _, rfl⟩
  · have h : r = 0x025A57000000000000 := List.mem_singleton.mp hr
    rw [h]; decide
  · have h : r = 0x01FF00000000 := List.mem_singleton.mp hr
    rw [h]; decide

/-- AnswersKeptInOrder: nobody moves; a request comes to a port by a host outside a program and by a program; a delivery. -/
theorem witness_AnswersKeptInOrder : (State.reset.nextEvent = none ∧ ∃ t, step State.reset = .next t) ∧
    encPresentedBy (.present (.enc 0)) State.reset = [0] ∧
    ((hosting .waiting [.request (.enc0 0)]).nextEvent = some (.host .waiting) ∧
      encPresentedBy (.host .waiting) (hosting .waiting [.request (.enc0 0)]) = [0] ∧
      resetsBy (.host .waiting) (hosting .waiting [.request (.enc0 0)]) = false ∧
      ∃ t, step (hosting .waiting [.request (.enc0 0)]) = .next t) ∧
    (busy [.transfer (.deliver .enc)]).nextEvent = some (.transfer (.deliver .enc)) ∧
    resetsBy (.transfer (.deliver .enc)) (busy [.transfer (.deliver .enc)]) = false ∧
    ∃ t, step (busy [.transfer (.deliver .enc)]) = .next t :=
  ⟨⟨by decide, _, step_quiet (by decide)⟩, by decide, ⟨rfl, by decide, by decide, _, rfl⟩, rfl, rfl, _, rfl⟩

/-- FairRoundsDrainBothUnits, clause 1: two rounds, the bound met exactly. -/
theorem witness_FairRoundsDrainBothUnits : (busy (fairRounds 2)).Inv ∧ (busy (fairRounds 2)).resetLine = false ∧
    (busy (fairRounds 2)).schedule = fairRounds 2 ∧
    (busy (fairRounds 2)).encHeld.toList.length + (busy (fairRounds 2)).EQ.length ≤ 2 ∧
    (busy (fairRounds 2)).decHeld.toList.length + (busy (fairRounds 2)).DQ.length ≤ 2 :=
  ⟨witness_Inv _, rfl, rfl, by decide, by decide⟩

/-- FairRoundsDrainBothUnits, clause 2: an endless run from reset in which the four transfers come round and round. -/
def roundTurn (n : Nat) : Event := fairRound.getD (n % 4) (.transfer (.accept .enc))

theorem witness_fair_play : Play roundTurn (fun _ => State.reset) ∧
    WeaklyFair (fun _ _ => True) roundTurn (fun _ => State.reset) ∧ State.reset.resetLine = false ∧
    ∀ n, resetsBy (roundTurn n) State.reset = false := by
  have turn : ∀ n, roundTurn n = .transfer (.accept .enc) ∨ roundTurn n = .transfer (.deliver .enc) ∨
      roundTurn n = .transfer (.accept .dec) ∨ roundTurn n = .transfer (.deliver .dec) := by
    intro n
    have h : n % 4 < 4 := Nat.mod_lt _ (by decide)
    unfold roundTurn
    generalize n % 4 = m at h
    interval_cases m <;> simp [fairRound]
  refine ⟨fun n => ⟨rfl, ?_⟩, fun u n => ⟨⟨n, le_rfl, .inr ?_⟩, n, le_rfl, .inr (.inl ?_)⟩, rfl, fun n => ?_⟩
  · rcases turn n with h | h | h | h <;> rw [h] <;> rfl
  · cases u <;> rfl
  · cases u <;> rfl
  · rcases turn n with h | h | h | h <;> rw [h] <;> rfl

/-- EncoderIgnoresLanesBeyondLen: VE4 and VE8, two different words. -/
theorem witness_EncoderIgnoresLanesBeyondLen : eReqLen 0x1FF00000000 = eReqLen 0x1FFFFFFFFFF ∧
    (∀ i < (eReqLen 0x1FF00000000).toNat, blane (eReqData 0x1FF00000000) i = blane (eReqData 0x1FFFFFFFFFF) i) ∧
    (0x1FF00000000 : EReq) ≠ 0x1FFFFFFFFFF := by decide

/-- DecoderIgnoresLanesBeyondCnt: VD7 and VD11, two different words. -/
theorem witness_DecoderIgnoresLanesBeyondCnt : dReqCnt 0x25A57000000000000 = dReqCnt 0x25A57555555555555 ∧
    (∀ k < (dReqCnt 0x25A57000000000000).toNat,
      lane8 (dReqSym 0x25A57000000000000) k = lane8 (dReqSym 0x25A57555555555555) k) ∧
    (0x25A57000000000000 : DReq) ≠ 0x25A57555555555555 := by decide

/-- CaseAndAliasDoNotMatter: VD22 and VD23, the alias equivalence of the source. -/
theorem witness_CaseAndAliasDoNotMatter : dReqCnt 0x649694C6C4F6F0000 = dReqCnt 0x63131313130300000 ∧
    ∀ k < (dReqCnt 0x649694C6C4F6F0000).toNat,
      inv (lane8 (dReqSym 0x649694C6C4F6F0000) k) = inv (lane8 (dReqSym 0x63131313130300000) k) := by decide

/-- EncoderResponseProperties: the smallest and the largest legal `LEN`. -/
theorem witness_EncoderResponseProperties : eRspStatus (encChunk 0x00000000000) = 0b00 ∧
    eRspStatus (encChunk 0x5FFFFFFFFFF) = 0b00 := by decide

/-- StatusIsOneAndFirst: its three clauses at the boundary counts 9 and 8. -/
theorem witness_StatusIsOneAndFirst : 9 ≤ (dReqCnt 0x95555555555555555).toNat ∧
    ((dReqCnt 0x83030303030303055).toNat ≤ 8 ∧ FirstInvalidAt (decInput 0x83030303030303055) 7) ∧
    ((dReqCnt 0x83055302C30303030).toNat ≤ 8 ∧ FirstInvalidAt (decInput 0x83055302C30303030) 1) ∧
    (dReqCnt 0x85A5A5A5A5A5A5A5A).toNat ≤ 8 ∧ AllValid (decInput 0x85A5A5A5A5A5A5A5A) :=
  ⟨by decide, ⟨by decide, firstInvalidAt_of_scan (by decide)⟩, ⟨by decide, firstInvalidAt_of_scan (by decide)⟩,
    by decide, allValid_of_scan (by decide)⟩

/-- DecoderUndoesEncoder: the largest legal `LEN`. -/
theorem witness_DecoderUndoesEncoder : (eReqLen 0x5F83E0F83E0).toNat ≤ 5 := by decide

/-- DecodeLengthAndTruncation. -/
theorem witness_DecodeLengthAndTruncation : decodeMessage (text "ZZZ") = some [0xFF] := by decide

/-- DecodeIsCaseAndAliasTolerant, second clause: two different texts. -/
theorem witness_DecodeIsCaseAndAliasTolerant : (text "IiLlOo").map inv = (text "111100").map inv ∧
    text "IiLlOo" ≠ text "111100" := by decide

/-- EncoderImageIsCanonicalText, second clause: a valid text the encoder never produces. -/
theorem witness_EncoderImageIsCanonicalText : AllValid (text "ZZ") ∧ canonicalText (text "ZZ") = false ∧
    canonicalText (text "ZW") = true := ⟨allValid_of_scan (by decide), by decide, by decide⟩

/-- EncodeOnTheBlock: the program `ENCODE [0xFF]` from reset, at every depth. -/
theorem witness_EncodeOnTheBlock :
    runSteps 3 { State.reset with program := encodeProgram [0xFF] } =
      .next { State.reset with encTaken := [0x025A57000000000000] } ∧
    noResetFor 3 { State.reset with program := encodeProgram [0xFF] } = true ∧
    encAsked 3 { State.reset with program := encodeProgram [0xFF] } = encodeRequests [0xFF] ∧
    (encodeRequests [0xFF]).length = 1 := ⟨by rfl, by decide, by decide, by decide⟩

/-- DecodeOnTheBlock: the program `DECODE "ZW"` from reset, at every depth. -/
theorem witness_DecodeOnTheBlock :
    runSteps 3 { State.reset with program := decodeProgram (text "ZW") } =
      .next { State.reset with decTaken := [0x01FF00000000] } ∧
    noResetFor 3 { State.reset with program := decodeProgram (text "ZW") } = true ∧
    decAsked 3 { State.reset with program := decodeProgram (text "ZW") } = decodeRequests (text "ZW") ∧
    (decodeRequests (text "ZW")).length = 1 := ⟨by rfl, by decide, by decide, by decide⟩

/-- DecodeOnTheBlock, the host that stops: the first of two chunks fails and the second is not presented. -/
theorem witness_DecodeOnTheBlock_stops :
    runSteps 3 { State.reset with program := (decodeProgram (text "U0000000Z")).take 2 } =
      .next { State.reset with decTaken := [0x400000000000] } ∧
    decAsked 3 { State.reset with program := (decodeProgram (text "U0000000Z")).take 2 } <+:
      decodeRequests (text "U0000000Z") ∧
    (decodeRequests (text "U0000000Z")).length = 2 ∧ dRspStatus 0x400000000000 = 0b01 :=
  ⟨by rfl, by decide, by decide, by decide⟩

theorem atRest_with (p : List HostStmt) : ({ State.reset with program := p } : State).AtRest :=
  ⟨rfl, rfl, rfl, rfl, rfl⟩

/-- SerialProgramsComplete: every premise is a block at rest with a program; clauses 1 to 3 and 6. -/
theorem witness_SerialProgramsComplete :
    ({ State.reset with program := encodeProgram [0xFF] ++ [.reset] } : State).AtRest ∧
    ({ State.reset with program := decodeProgram (text "ZW") ++ [] } : State).AtRest ∧
    withinDepth 0 0 [.request (.enc1 0xFF 0), .request (.dec1 0x5A 0), .take .dec, .take .enc] = true ∧
    ({ State.reset with program := [.take .enc] } : State).AtRest :=
  ⟨atRest_with _, atRest_with _, by decide, atRest_with _⟩

/-- SerialProgramsComplete, clauses 4 and 5: one request more than the depth, at the boundary. -/
theorem witness_beyond_depth : Config.encDepth < (List.replicate (Config.encDepth + 1) (0 : EReq)).length ∧
    Config.decDepth < (List.replicate (Config.decDepth + 1) (0 : DReq)).length := by simp

end Sys2Proof.Tests
end

section
/-! The response functions `EncChunk` and `DecChunk` in the shape of the forms' own meanings (spec 40_encoder.md R71,
41_decoder.md R89), and every meaning as the acceptance of its word with the response of its unit's function. -/

namespace Sys2Proof.Machine

/-! ### Groups and bytes of a chunk -/

/-- The eight groups of the byte chunk `b 0 ‖ ... ‖ b 4` (40_encoder.md R73). -/
def chunkGroups (b : Nat → Byte) : List Group :=
  [g0 (b 0), g1 (b 0) (b 1), g2 (b 1), g3 (b 1) (b 2), g4 (b 2) (b 3), g5 (b 3), g6 (b 3) (b 4), g7 (b 4)]

/-- The five bytes of the symbol chunk with the values `v 0 ‖ ... ‖ v 7` (41_decoder.md R91). -/
def chunkBytes (v : Nat → Group) : List Byte :=
  [y0 (v 0) (v 1), y1 (v 1) (v 2) (v 3), y2 (v 3) (v 4), y3 (v 4) (v 5) (v 6), y4 (v 6) (v 7)]

/-- The groups written out for the forms are those of the packed word, bit by bit (R73, 20_memory.md R36). -/
theorem chunkGroups_getElem? (b : Nat → Byte) {k : Nat} (h : k < 8) :
    (chunkGroups b)[k]? = some (groupOf (byteWord b) k) := by
  interval_cases k <;> refine congrArg some (BitVec.eq_of_getLsbD_eq fun i hi => ?_) <;> interval_cases i <;>
    simp only [groupOf, byteWord, g0, g1, g2, g3, g4, g5, g6, g7, BitVec.getLsbD_append,
      BitVec.getLsbD_extractLsb'] <;> rfl

/-- The bytes written out for the forms are those of the packed word, bit by bit (R91, 20_memory.md R37). -/
theorem chunkBytes_getElem? (v : Nat → Group) {i : Nat} (h : i < 5) :
    (chunkBytes v)[i]? = some (blane (groupWord v) i) := by
  interval_cases i <;> refine congrArg some (BitVec.eq_of_getLsbD_eq fun j hj => ?_) <;> interval_cases j <;>
    simp only [blane, groupWord, y0, y1, y2, y3, y4, BitVec.getLsbD_append, BitVec.getLsbD_extractLsb'] <;> rfl

/-! ### The response functions, by payload -/

theorem symWord_congr {f g : Nat → Sym} (h : ∀ k < 8, f k = g k) : symWord f = symWord g := by
  simp [symWord, h]

theorem byteWord_congr {f g : Nat → Byte} (h : ∀ i < 5, f i = g i) : byteWord f = byteWord g := by
  simp [byteWord, h]

/-- The `OK` response of ENC with the first `n` groups of a chunk, in the shape of R71. -/
theorem encOk_take_chunkGroups (b : Nat → Byte) {n : Nat} (h : n ≤ 8) :
    encOk ((chunkGroups b).take n) = eRspWord statusOk (BitVec.ofNat 4 n)
      (symWord fun k => if k < n then alpha (groupOf (byteWord b) k) else 0x00) := by
  have hlen : ((chunkGroups b).take n).length = n := by simpa [chunkGroups] using h
  rw [encOk, hlen]
  refine congrArg (eRspWord _ _) (symWord_congr fun k hk => ?_)
  by_cases hn : k < n
  · simp [hn, chunkGroups_getElem? b hk]
  · simp [hn]

/-- The `OK` response of DEC with the first `m` bytes of a chunk, in the shape of R89. -/
theorem decOk_take_chunkBytes (v : Nat → Group) {m : Nat} (h : m ≤ 5) :
    decOk ((chunkBytes v).take m) = dRspWord statusOk 0 (BitVec.ofNat 3 m)
      (byteWord fun i => if i < m then blane (groupWord v) i else 0x00) := by
  have hlen : ((chunkBytes v).take m).length = m := by simpa [chunkBytes] using h
  rw [decOk, hlen]
  refine congrArg (dRspWord _ _ _) (byteWord_congr fun i hi => ?_)
  by_cases hm : i < m
  · simp [hm, chunkBytes_getElem? v hi]
  · simp [hm]

/-- `EncChunk` of a legal request is the `OK` response with the groups of its payload, missing bytes 0x00 (R71). -/
theorem encChunk_of_payload {w : EReq} {payload : List Byte}
    (hp : (List.range (eReqLen w).toNat).map (blane (eReqData w)) = payload) (hl : payload.length ≤ 5) :
    encChunk w = encOk ((chunkGroups fun i => payload.getD i 0x00).take (encCount payload.length)) := by
  have hlen : payload.length = (eReqLen w).toNat := by simp [← hp]
  have hbyte : encByte w = fun i => payload.getD i 0x00 := by
    funext i
    by_cases hi : i < (eReqLen w).toNat <;> simp [encByte, ← hp, hi]
  rw [hlen] at hl ⊢
  rw [encOk_take_chunkGroups _ (by unfold encCount; omega), ← hbyte]
  exact if_neg (by omega)

theorem encChunk_illegal {w : EReq} (h : 6 ≤ (eReqLen w).toNat) : encChunk w = encIllegal := if_pos h

/-- `DecChunk` of a legal request is the form's answer to its input symbols with the bytes of their values (R89). -/
theorem decChunk_of_input {w : DReq} {input : List Sym} (hi : decInput w = input) (hl : input.length ≤ 8) :
    decChunk w = decAnswer input
      ((chunkBytes fun k => (input.map valueOf).getD k 0).take (decCount input.length)) := by
  have hcnt : input.length = (dReqCnt w).toNat := by simp [← hi, decInput]
  have hval : decValue w = fun k => (input.map valueOf).getD k 0 := by
    funext k
    by_cases hk : k < (dReqCnt w).toNat <;> simp [decValue, ← hi, decInput, hk]
  rw [hcnt] at hl ⊢
  rw [decAnswer, decOk_take_chunkBytes _ (by unfold decCount; omega), ← hval, ← hi]
  exact if_neg (by omega)

theorem decChunk_illegal {w : DReq} (h : 9 ≤ (dReqCnt w).toNat) : decChunk w = decIllegal := if_pos h

/-! ### Every meaning answers its unit's response function -/

/-- An encoder form's own answer is `EncChunk` of its word: the groups are those of the payload in the word's lanes. For
a written-out payload its length, its groups and its lanes are routine. -/
theorem acceptEnc_payload {w : EReq} {gs : List Group} (payload : List Byte) (s : State)
    (hl : payload.length ≤ 5 := by simp)
    (hg : (chunkGroups fun i => payload.getD i 0x00).take (encCount payload.length) = gs := by
      simp [chunkGroups, encCount])
    (hp : (List.range (eReqLen w).toNat).map (blane (eReqData w)) = payload := by
      simp (disch := decide) only [eReqLen_word, eReqData_word, BitVec.reduceToNat, List.range_succ, List.range_zero,
        List.nil_append, List.cons_append, List.map_cons, List.map_nil, blane, Nat.reduceMul, Nat.reduceSub,
        BitVec.extractLsb'_append_eq_of_le, BitVec.extractLsb'_append_eq_of_add_le, BitVec.extractLsb'_eq_self]) :
    acceptEnc w (encOk gs) s = acceptEnc w (encChunk w) s := by
  rw [encChunk_of_payload hp hl, hg]

/-- A decoder form's own answer is `DecChunk` of its word: the bytes are those of the symbols in the word's lanes. For
written-out symbols their number, their bytes and their lanes are routine. -/
theorem acceptDec_input {w : DReq} {bs : List Byte} (input : List Sym) (s : State)
    (hl : input.length ≤ 8 := by simp)
    (hb : (chunkBytes fun k => (input.map valueOf).getD k 0).take (decCount input.length) = bs := by
      simp [chunkBytes, decCount])
    (hi : decInput w = input := by
      simp (disch := decide) only [decInput, dReqCnt_word, dReqSym_word, BitVec.reduceToNat, List.range_succ,
        List.range_zero, List.nil_append, List.cons_append, List.map_cons, List.map_nil, lane8, Nat.reduceMul,
        Nat.reduceSub, BitVec.extractLsb'_append_eq_of_le, BitVec.extractLsb'_append_eq_of_add_le,
        BitVec.extractLsb'_eq_self]) :
    acceptDec w (decAnswer input bs) s = acceptDec w (decChunk w) s := by
  rw [decChunk_of_input hi hl, hb]

/-- Every encoder form is the acceptance of its word with `EncChunk` of it (40_encoder.md R71, R77-R84). -/
theorem exec_eq_acceptEnc {i : Instr} {w : EReq} (h : encode i = .enc w) (s : State) :
    exec i s = acceptEnc w (encChunk w) s := by
  cases i <;> cases h
  case encIll6 => rw [encChunk_illegal (by simp)]; rfl
  case encIll7 => rw [encChunk_illegal (by simp)]; rfl
  case enc0 => exact acceptEnc_payload [] s
  case enc1 b0 x => exact acceptEnc_payload [b0] s
  case enc2 b0 b1 x => exact acceptEnc_payload [b0, b1] s
  case enc3 b0 b1 b2 x => exact acceptEnc_payload [b0, b1, b2] s
  case enc4 b0 b1 b2 b3 x => exact acceptEnc_payload [b0, b1, b2, b3] s
  case enc5 b0 b1 b2 b3 b4 => exact acceptEnc_payload [b0, b1, b2, b3, b4] s

/-- Every decoder form is the acceptance of its word with `DecChunk` of it (41_decoder.md R89, R99-R114). -/
theorem exec_eq_acceptDec {i : Instr} {w : DReq} (h : encode i = .dec w) (s : State) :
    exec i s = acceptDec w (decChunk w) s := by
  cases i <;> cases h
  case decIll9 => rw [decChunk_illegal (by simp)]; rfl
  case decIll10 => rw [decChunk_illegal (by simp)]; rfl
  case decIll11 => rw [decChunk_illegal (by simp)]; rfl
  case decIll12 => rw [decChunk_illegal (by simp)]; rfl
  case decIll13 => rw [decChunk_illegal (by simp)]; rfl
  case decIll14 => rw [decChunk_illegal (by simp)]; rfl
  case decIll15 => rw [decChunk_illegal (by simp)]; rfl
  case dec0 => exact acceptDec_input [] s
  case dec1 s0 x => exact acceptDec_input [s0] s
  case dec2 s0 s1 x => exact acceptDec_input [s0, s1] s
  case dec3 s0 s1 s2 x => exact acceptDec_input [s0, s1, s2] s
  case dec4 s0 s1 s2 s3 x => exact acceptDec_input [s0, s1, s2, s3] s
  case dec5 s0 s1 s2 s3 s4 x => exact acceptDec_input [s0, s1, s2, s3, s4] s
  case dec6 s0 s1 s2 s3 s4 s5 x => exact acceptDec_input [s0, s1, s2, s3, s4, s5] s
  case dec7 s0 s1 s2 s3 s4 s5 s6 x => exact acceptDec_input [s0, s1, s2, s3, s4, s5, s6] s
  case dec8 s0 s1 s2 s3 s4 s5 s6 s7 => exact acceptDec_input [s0, s1, s2, s3, s4, s5, s6, s7] s

end Sys2Proof.Machine
end

section
/-! What every step keeps of the state (spec 10_state.md section 5): the invariant, and responses that their unit's
function gives; and that a unit remembers nothing of earlier requests (10_state.md R16). -/

namespace Sys2Proof.Machine

/-! ### Properties that every step keeps -/

/-- A property that looks neither at the held requests nor at the schedule, that every meaning keeps and that every move
other than an acceptance keeps, is kept by every step. -/
theorem step_keeps {P : State → Prop}
    (hports : ∀ s e d es, P s → P { s with encHeld := e, decHeld := d, schedule := es })
    (hexec : ∀ i s t, P s → exec i s = .next t → P t) (hmoves : ∀ s e t, P s → Moves s e t → P t)
    {s t : State} (hs : P s) (h : step s = .next t) : P t := by
  rcases step_cases h with ⟨-, rfl⟩ | ⟨w, -, -, hrun⟩ | ⟨w, -, -, hrun⟩ | ⟨e, -, hmove⟩
  · exact hs
  · exact hexec _ _ _ (hports s none s.decHeld _ hs) hrun
  · exact hexec _ _ _ (hports s s.encHeld none _ hs) hrun
  · exact hmoves s e t hs hmove

/-! ### The invariant, move by move -/

/-- The invariant looks at the queues and the reset input alone. -/
theorem State.Inv.of_queues {s t : State} (hs : s.Inv) (hE : t.EQ = s.EQ) (hD : t.DQ = s.DQ)
    (hl : t.resetLine = s.resetLine) : t.Inv where
  encRoom := hE ▸ hs.encRoom
  decRoom := hD ▸ hs.decRoom
  encPossible := hE ▸ hs.encPossible
  decPossible := hD ▸ hs.decPossible
  resetEmpty := by rw [hE, hD, hl]; exact hs.resetEmpty

/-- An accepted request finds room and no reset, so a possible response may join `EQ` (R38, R144). -/
theorem acceptEnc_keeps_inv {w : EReq} {r : ERsp} {s t : State} (hr : eRspFault r = none) (hs : s.Inv)
    (h : acceptEnc w r s = .next t) : t.Inv := by
  rcases acceptEnc_cases h with ⟨hready, rfl⟩ | ⟨-, rfl⟩
  · obtain ⟨hl, hroom⟩ := encReady_iff.mp hready
    exact ⟨by simpa using hroom, hs.decRoom, by simpa [or_imp, forall_and, hr] using hs.encPossible,
      hs.decPossible, by simp [hl]⟩
  · exact hs.of_queues rfl rfl rfl

/-- An accepted request finds room and no reset, so a possible response may join `DQ` (R38, R144). -/
theorem acceptDec_keeps_inv {w : DReq} {r : DRsp} {s t : State} (hr : dRspFault r = none) (hs : s.Inv)
    (h : acceptDec w r s = .next t) : t.Inv := by
  rcases acceptDec_cases h with ⟨hready, rfl⟩ | ⟨-, rfl⟩
  · obtain ⟨hl, hroom⟩ := decReady_iff.mp hready
    exact ⟨hs.encRoom, by simpa using hroom, hs.encPossible,
      by simpa [or_imp, forall_and, hr] using hs.decPossible, by simp [hl]⟩
  · exact hs.of_queues rfl rfl rfl

theorem exec_keeps_inv {i : Instr} {s t : State} (hs : s.Inv) (h : exec i s = .next t) : t.Inv := by
  cases hi : encode i with
  | enc w =>
    obtain ⟨r, hr, hexec⟩ := exec_enc hi
    exact acceptEnc_keeps_inv hr hs (hexec s ▸ h)
  | dec w =>
    obtain ⟨r, hr, hexec⟩ := exec_dec hi
    exact acceptDec_keeps_inv hr hs (hexec s ▸ h)

/-- A move that is no acceptance leaves the queues, takes the oldest response off one while no reset is asserted, or
empties both. -/
theorem moves_keeps_inv {s t : State} {e : Event} (hs : s.Inv) (h : Moves s e t) : t.Inv := by
  cases h with
  | waits => exact hs.of_queues rfl rfl rfl
  | asksEnc => exact hs.of_queues rfl rfl rfl
  | asksDec => exact hs.of_queues rfl rfl rfl
  | givesEnc r rs p _ _ _ hl hq =>
    have hroom := hs.encRoom
    have hposs := hs.encPossible
    rw [hq] at hroom hposs
    exact ⟨Nat.le_of_succ_le hroom, hs.decRoom, fun x hx => hposs x (List.mem_cons_of_mem r hx),
      hs.decPossible, by simp [hl]⟩
  | givesDec r rs p _ _ _ hl hq =>
    have hroom := hs.decRoom
    have hposs := hs.decPossible
    rw [hq] at hroom hposs
    exact ⟨hs.encRoom, Nat.le_of_succ_le hroom, hs.encPossible,
      fun x hx => hposs x (List.mem_cons_of_mem r hx), by simp [hl]⟩
  | resets l p =>
    exact ⟨Nat.zero_le _, Nat.zero_le _, by simp, by simp, fun _ => ⟨rfl, rfl⟩⟩

/-- Settles O37, by what a step can do: a held request is tried and finds room or is held again, or some other move is
made, none of which lengthens a queue. -/
theorem everyStepKeepsInvariant : Obligations.EveryStepKeepsInvariant :=
  fun _ _ => step_keeps (fun _ _ _ _ hs => hs.of_queues rfl rfl rfl) (fun _ _ _ => exec_keeps_inv)
    fun _ _ _ => moves_keeps_inv

/-- Settles O25: each form is the acceptance of its word with one response, whatever the state. -/
theorem responseDependsOnRequestAlone : Obligations.ResponseDependsOnRequestAlone := by
  intro i
  cases hi : encode i with
  | enc w =>
    obtain ⟨r, -, hexec⟩ := exec_enc hi
    exact .inl ⟨r, fun s hs => (hexec s).trans (acceptEnc_ready (encReady_iff.mpr hs))⟩
  | dec w =>
    obtain ⟨r, -, hexec⟩ := exec_dec hi
    exact .inr ⟨r, fun s hs => (hexec s).trans (acceptDec_ready (decReady_iff.mpr hs))⟩

/-! ### Genuine responses, move by move -/

/-- Genuineness looks at what is taken and then queued, unit by unit, so a response may pass from queue to host. -/
theorem State.Genuine.of_answered {s t : State} (hs : s.Genuine) (hE : t.encTaken ++ t.EQ = s.encTaken ++ s.EQ)
    (hD : t.decTaken ++ t.DQ = s.decTaken ++ s.DQ) : t.Genuine where
  enc := hE ▸ hs.enc
  dec := hD ▸ hs.dec

theorem State.Genuine.pushEQ_encChunk {s : State} (hs : s.Genuine) (w : EReq) : (pushEQ (encChunk w) s).Genuine where
  enc := by
    intro r hr
    rw [pushEQ_encTaken, pushEQ_EQ, ← List.append_assoc, List.mem_append, List.mem_singleton] at hr
    exact hr.elim (hs.enc r) fun hr => ⟨w, hr⟩
  dec := hs.dec

theorem State.Genuine.pushDQ_decChunk {s : State} (hs : s.Genuine) (w : DReq) : (pushDQ (decChunk w) s).Genuine where
  enc := hs.enc
  dec := by
    intro r hr
    rw [pushDQ_decTaken, pushDQ_DQ, ← List.append_assoc, List.mem_append, List.mem_singleton] at hr
    exact hr.elim (hs.dec r) fun hr => ⟨w, hr⟩

theorem exec_keeps_genuine {i : Instr} {s t : State} (hs : s.Genuine) (h : exec i s = .next t) : t.Genuine := by
  cases hi : encode i with
  | enc w =>
    rw [exec_eq_acceptEnc hi] at h
    rcases acceptEnc_cases h with ⟨-, rfl⟩ | ⟨-, rfl⟩
    · exact hs.pushEQ_encChunk w
    · exact hs.of_answered rfl rfl
  | dec w =>
    rw [exec_eq_acceptDec hi] at h
    rcases acceptDec_cases h with ⟨-, rfl⟩ | ⟨-, rfl⟩
    · exact hs.pushDQ_decChunk w
    · exact hs.of_answered rfl rfl

/-- A move that is no acceptance makes no response: it hands one over, or discards those queued. -/
theorem moves_keeps_genuine {s t : State} {e : Event} (hs : s.Genuine) (h : Moves s e t) : t.Genuine := by
  cases h with
  | waits => exact hs.of_answered rfl rfl
  | asksEnc => exact hs.of_answered rfl rfl
  | asksDec => exact hs.of_answered rfl rfl
  | givesEnc r rs p _ _ _ _ hq => exact hs.of_answered (by simp [hq]) rfl
  | givesDec r rs p _ _ _ _ hq => exact hs.of_answered rfl (by simp [hq])
  | resets l p =>
    exact ⟨fun r hr => hs.enc r (List.mem_append_left _ (by simpa using hr)),
      fun r hr => hs.dec r (List.mem_append_left _ (by simpa using hr))⟩

/-- Settles O39: an accepted request is answered by its unit's response function, and no other move makes a response. -/
theorem everyStepKeepsGenuine : Obligations.EveryStepKeepsGenuine :=
  fun _ _ => step_keeps (fun _ _ _ _ hs => hs.of_answered rfl rfl) (fun _ _ _ => exec_keeps_genuine)
    fun _ _ _ => moves_keeps_genuine

end Sys2Proof.Machine
end

section
/-! What a transfer of either unit does, in closed form (spec 20_memory.md R38, R39): the request words read back, and
the state after each of the four transfers. -/

namespace Sys2Proof.Machine

/-! ### A request word is the word of its instruction -/

theorem eReqWord_fields (w : EReq) : eReqWord (eReqLen w) (eReqData w) = w :=
  (BitVec.extractLsb'_append_extractLsb'_eq_extractLsb' (by rfl)).trans (BitVec.extractLsb'_eq_self ..)

theorem dReqWord_fields (w : DReq) : dReqWord (dReqCnt w) (dReqSym w) = w :=
  (BitVec.extractLsb'_append_extractLsb'_eq_extractLsb' (by rfl)).trans (BitVec.extractLsb'_eq_self ..)

/-- The form of an encoder request keeps every lane, in place (30_encoding.md R54, R63). -/
theorem encode_decodeEReq (w : EReq) : encode (decodeEReq w) = .enc w := by
  conv => rhs; rw [← eReqWord_fields w]
  unfold decodeEReq
  split
  all_goals
    rename_i h
    rw [h]
    refine congrArg (fun d => PortWord.enc (eReqWord _ d)) ?_
    simp (disch := decide) only [blane, BitVec.extractLsb'_append_extractLsb'_eq_extractLsb'] <;>
      exact BitVec.extractLsb'_eq_self ..

/-- The form of a decoder request keeps every lane, in place (30_encoding.md R57, R63). -/
theorem encode_decodeDReq (w : DReq) : encode (decodeDReq w) = .dec w := by
  conv => rhs; rw [← dReqWord_fields w]
  unfold decodeDReq
  split
  case h_16 =>
    have h : dReqCnt w = 0b1111#4 := by
      generalize dReqCnt w = c at *
      revert c
      decide
    rw [h]; rfl
  all_goals
    rename_i h
    rw [h]
    refine congrArg (fun y => PortWord.dec (dReqWord _ y)) ?_
    simp (disch := decide) only [lane8, BitVec.extractLsb'_append_extractLsb'_eq_extractLsb'] <;>
      exact BitVec.extractLsb'_eq_self ..

/-! ### The state after a transfer -/

/-- The transfer happens when its turn comes: a unit with room has a request, or a response is offered (R38, R39). -/
def canTransfer : Transfer → State → Bool
  | .accept u, s => canAccept u s
  | .deliver u, s => canDeliver u s

/-- The unit has queued the answer to the request on its port (R38), or handed its oldest response to the host (R39). -/
def transferred : Transfer → State → State
  | .accept .enc, s => { s with encHeld := none, EQ := s.EQ ++ s.encHeld.toList.map encChunk }
  | .accept .dec, s => { s with decHeld := none, DQ := s.DQ ++ s.decHeld.toList.map decChunk }
  | .deliver .enc, s => { s with EQ := s.EQ.tail, encTaken := s.encTaken ++ s.EQ.head?.toList }
  | .deliver .dec, s => { s with DQ := s.DQ.tail, decTaken := s.decTaken ++ s.DQ.head?.toList }

/-- The state after a transfer's turn: the transfer happens when it can, else the turn passes. -/
def afterTransfer (x : Transfer) (s : State) : State := if canTransfer x s then transferred x s else s

theorem afterTransfer_can {x : Transfer} {s : State} (h : canTransfer x s = true) :
    afterTransfer x s = transferred x s := if_pos h

theorem afterTransfer_cannot {x : Transfer} {s : State} (h : canTransfer x s = false) : afterTransfer x s = s := by
  simp [afterTransfer, h]

theorem canTransfer_schedule (x : Transfer) (s : State) (es : List Event) :
    canTransfer x { s with schedule := es } = canTransfer x s := by
  rcases x with (_ | _) | (_ | _) <;> rfl

theorem transferred_schedule (x : Transfer) (s : State) (es : List Event) :
    transferred x { s with schedule := es } = { transferred x s with schedule := es } := by
  rcases x with (_ | _) | (_ | _) <;> rfl

/-- A transfer neither reads nor writes the schedule. -/
theorem afterTransfer_schedule (x : Transfer) (s : State) (es : List Event) :
    afterTransfer x { s with schedule := es } = { afterTransfer x s with schedule := es } := by
  unfold afterTransfer
  rw [canTransfer_schedule, transferred_schedule]
  split <;> rfl

@[simp] theorem afterTransfer_program (x : Transfer) (s : State) : (afterTransfer x s).program = s.program := by
  unfold afterTransfer
  split
  · rcases x with (_ | _) | (_ | _) <;> rfl
  · rfl

@[simp] theorem afterTransfer_resetLine (x : Transfer) (s : State) : (afterTransfer x s).resetLine = s.resetLine := by
  unfold afterTransfer
  split
  · rcases x with (_ | _) | (_ | _) <;> rfl
  · rfl

/-- A request fetched from ENC's port is accepted, or put back as it stood. -/
theorem acceptEnc_fetched {w : EReq} {s : State} (h : s.encHeld = some w) :
    acceptEnc w (encChunk w) { s with encHeld := none } = .next (afterTransfer (.accept .enc) s) := by
  have hc : canTransfer (.accept .enc) s = encReady Config.encDepth s := by simp [canTransfer, canAccept, h]
  cases hr : encReady Config.encDepth s with
  | true =>
    refine (acceptEnc_ready (s := { s with encHeld := none }) hr).trans ?_
    simp [afterTransfer_can (hc.trans hr), transferred, pushEQ, h]
  | false =>
    refine (acceptEnc_held (s := { s with encHeld := none }) hr).trans ?_
    simp [afterTransfer_cannot (hc.trans hr), holdEnc, ← h]

/-- A request fetched from DEC's port is accepted, or put back as it stood. -/
theorem acceptDec_fetched {w : DReq} {s : State} (h : s.decHeld = some w) :
    acceptDec w (decChunk w) { s with decHeld := none } = .next (afterTransfer (.accept .dec) s) := by
  have hc : canTransfer (.accept .dec) s = decReady Config.decDepth s := by simp [canTransfer, canAccept, h]
  cases hr : decReady Config.decDepth s with
  | true =>
    refine (acceptDec_ready (s := { s with decHeld := none }) hr).trans ?_
    simp [afterTransfer_can (hc.trans hr), transferred, pushDQ, h]
  | false =>
    refine (acceptDec_held (s := { s with decHeld := none }) hr).trans ?_
    simp [afterTransfer_cannot (hc.trans hr), holdDec, ← h]

/-- A delivery that answers a next state is the deliver transfer. -/
theorem deliver_eq_afterTransfer {u : UnitId} {s t : State} (h : deliver u s = .next t) :
    t = afterTransfer (.deliver u) s := by
  cases u
  · rcases deliverEnc_cases h with ⟨rfl, hl | hq⟩ | ⟨r, rs, hl, hq, -, rfl⟩
    · exact (afterTransfer_cannot (by simp [canTransfer, canDeliver, hl])).symm
    · exact (afterTransfer_cannot (by simp [canTransfer, canDeliver, encRspValid, hq])).symm
    · rw [afterTransfer_can (by simp [canTransfer, canDeliver, encRspValid, hl, hq])]
      simp [transferred, hq]
  · rcases deliverDec_cases h with ⟨rfl, hl | hq⟩ | ⟨r, rs, hl, hq, -, rfl⟩
    · exact (afterTransfer_cannot (by simp [canTransfer, canDeliver, hl])).symm
    · exact (afterTransfer_cannot (by simp [canTransfer, canDeliver, decRspValid, hq])).symm
    · rw [afterTransfer_can (by simp [canTransfer, canDeliver, decRspValid, hl, hq])]
      simp [transferred, hq]

/-- A step whose event is a transfer does that transfer and takes it off the schedule. -/
theorem step_transfer {s t : State} {x : Transfer} (hn : s.nextEvent = some (.transfer x)) (h : step s = .next t) :
    t = { afterTransfer x s with schedule := s.schedule.tail } := by
  rw [← afterTransfer_schedule]
  rcases x with (_ | _) | u
  · obtain hw | ⟨w, hw⟩ := Option.eq_none_or_eq_some s.encHeld
    · rw [step_acceptEnc_none hn hw] at h; cases h
      exact (afterTransfer_cannot (by simp [canTransfer, canAccept, hw])).symm
    · rw [step_acceptEnc hn hw, exec_eq_acceptEnc (encode_decodeEReq w)] at h
      exact Host.Outcome.next.inj
        (h.symm.trans (acceptEnc_fetched (s := { s with schedule := s.schedule.tail }) hw))
  · obtain hw | ⟨w, hw⟩ := Option.eq_none_or_eq_some s.decHeld
    · rw [step_acceptDec_none hn hw] at h; cases h
      exact (afterTransfer_cannot (by simp [canTransfer, canAccept, hw])).symm
    · rw [step_acceptDec hn hw, exec_eq_acceptDec (encode_decodeDReq w)] at h
      exact Host.Outcome.next.inj
        (h.symm.trans (acceptDec_fetched (s := { s with schedule := s.schedule.tail }) hw))
  · rw [step_deliver hn] at h
    exact deliver_eq_afterTransfer h

/-! ### From the invariant every step leads on -/

theorem exec_next (i : Instr) (s : State) : ∃ t, exec i s = .next t := by
  cases hi : encode i with
  | enc w => exact ⟨_, exec_eq_acceptEnc hi s⟩
  | dec w => exact ⟨_, exec_eq_acceptDec hi s⟩

/-- A delivery stops only on a word that B32CORE cannot produce, and the invariant holds none (30_encoding.md R64). -/
theorem deliver_next {s : State} (hs : s.Inv) (u : UnitId) : ∃ t, deliver u s = .next t := by
  by_contra hn
  rw [not_exists] at hn
  cases u
  · obtain ⟨f, r, rs, -, hq, hf, -⟩ := deliverEnc_stops hn
    simp [hs.encPossible r (by simp [hq])] at hf
  · obtain ⟨f, r, rs, -, hq, hf, -⟩ := deliverDec_stops hn
    simp [hs.decPossible r (by simp [hq])] at hf

theorem hostTurn_next {s : State} (hs : s.Inv) (g : HostStyle) : ∃ t, hostTurn g s = .next t := by
  unfold hostTurn
  split
  · exact ⟨_, rfl⟩
  · rename_i st p _
    cases st with
    | request i => exact ⟨_, rfl⟩
    | take u => exact deliver_next (s := { s with program := p }) (hs.of_queues rfl rfl rfl) u
    | reset => exact ⟨_, rfl⟩

/-- From a state that meets the invariant every step leads to a next state (60_exceptions.md R142). -/
theorem step_next {s : State} (hs : s.Inv) : ∃ t, step s = .next t := by
  have hs' : ({ s with schedule := s.schedule.tail } : State).Inv := hs.of_queues rfl rfl rfl
  cases hn : s.nextEvent with
  | none => exact ⟨s, step_quiet hn⟩
  | some e =>
    rcases e with w | g | ((_ | _) | u) | x | _ | _
    · exact ⟨_, step_present hn⟩
    · rw [step_host hn]; exact hostTurn_next hs' g
    · cases hw : s.encHeld with
      | none => exact ⟨_, step_acceptEnc_none hn hw⟩
      | some w => rw [step_acceptEnc hn hw]; exact exec_next ..
    · cases hw : s.decHeld with
      | none => exact ⟨_, step_acceptDec_none hn hw⟩
      | some w => rw [step_acceptDec hn hw]; exact exec_next ..
    · rw [step_deliver hn]; exact deliver_next hs' u
    · exact ⟨_, step_reset hn⟩
    · exact ⟨_, step_assertReset hn⟩
    · exact ⟨_, step_releaseReset hn⟩

/-- A scheduled transfer happens, whatever comes after it. -/
theorem step_scheduled_transfer {s : State} (hs : s.Inv) {x : Transfer} {es : List Event}
    (h : s.schedule = .transfer x :: es) :
    step s = .next { afterTransfer x s with schedule := es } := by
  obtain ⟨t, ht⟩ := step_next hs
  rw [ht, step_transfer (nextEvent_cons h) ht, h, List.tail_cons]

/-- Two scheduled transfers happen one after the other. -/
theorem runSteps_two_transfers {s : State} (hs : s.Inv) (x y : Transfer) (es : List Event) :
    runSteps 2 { s with schedule := .transfer x :: .transfer y :: es } =
      .next { afterTransfer y (afterTransfer x s) with schedule := es } := by
  have hs₀ : ({ s with schedule := .transfer x :: .transfer y :: es } : State).Inv := hs.of_queues rfl rfl rfl
  have h₁ := step_scheduled_transfer hs₀ rfl
  have h₂ := step_scheduled_transfer (everyStepKeepsInvariant _ _ hs₀ h₁) rfl
  rw [runSteps_succ h₁, runSteps_succ h₂, runSteps_zero]
  simp only [afterTransfer_schedule]

/-- ENC's transfers and DEC's read and write different fields (R42). -/
theorem transfers_independent {x y : Transfer} (hx : x ∈ [.accept .enc, .deliver .enc])
    (hy : y ∈ [.accept .dec, .deliver .dec]) (s : State) :
    canTransfer y (transferred x s) = canTransfer y s ∧ canTransfer x (transferred y s) = canTransfer x s ∧
      transferred y (transferred x s) = transferred x (transferred y s) := by
  simp only [List.mem_cons, List.not_mem_nil, or_false] at hx hy
  rcases hx with rfl | rfl <;> rcases hy with rfl | rfl <;> exact ⟨rfl, rfl, rfl⟩

theorem afterTransfer_comm {x y : Transfer} (hx : x ∈ [.accept .enc, .deliver .enc])
    (hy : y ∈ [.accept .dec, .deliver .dec]) (s : State) :
    afterTransfer y (afterTransfer x s) = afterTransfer x (afterTransfer y s) := by
  obtain ⟨hyx, hxy, hcomm⟩ := transfers_independent hx hy s
  cases hcx : canTransfer x s <;> cases hcy : canTransfer y s <;> simp [afterTransfer, *]

/-- Settles O35: each order of the two turns leads to the state in which both transfers have been made. -/
theorem unitTransfersCommute : Obligations.UnitTransfersCommute := by
  intro s x y es hs hx hy
  refine ⟨_, runSteps_two_transfers hs x y es, ?_⟩
  rw [runSteps_two_transfers hs y x es, afterTransfer_comm hx hy]

end Sys2Proof.Machine
end

section
/-! A unit as the host sees it (spec 20_memory.md R40, R41): the responses taken, those queued and the answer due for
the request held. Each step without a reset moves one answer along or adds one at the end. -/

namespace Sys2Proof.Machine

/-- The answers of one unit, by where they stand: handed to the host, queued, due for the request held. -/
structure Port (α : Type) where
  taken : List α
  queued : List α
  due : List α

namespace Port

variable {α : Type}

/-- The unit's answers in order (R40, R41). -/
def answers (p : Port α) : List α := p.taken ++ p.queued ++ p.due

/-- How many answers the unit still owes the host. -/
def owed (p : Port α) : Nat := p.queued.length + p.due.length

/-- What a step without a reset can do to a unit, given the answers to the requests it brings to the port. -/
inductive Moves : List α → Port α → Port α → Prop where
  | waits (p : Port α) : Moves [] p p
  | asks {p : Port α} (a : α) (h : p.due = []) : Moves [a] p ⟨p.taken, p.queued, [a]⟩
  | accepts {p : Port α} {a : α} (h : p.due = [a]) : Moves [] p ⟨p.taken, p.queued ++ [a], []⟩
  | gives {p : Port α} {a : α} {q : List α} (h : p.queued = a :: q) : Moves [] p ⟨p.taken ++ [a], q, p.due⟩

theorem Moves.answers {p p' : Port α} {l : List α} (h : Moves l p p') : p'.answers = p.answers ++ l := by
  cases h <;> simp [Port.answers, *]

theorem Moves.taken_prefix {p p' : Port α} {l : List α} (h : Moves l p p') : p.taken <+: p'.taken := by
  cases h with
  | gives => exact List.prefix_append ..
  | _ => exact List.prefix_rfl

/-- A queue with a response in it keeps one, or the response is handed over. -/
theorem Moves.queued_or_taken {p p' : Port α} {l : List α} (h : Moves l p p') (hq : p.queued ≠ []) :
    p'.queued ≠ [] ∨ p.taken.length < p'.taken.length := by
  cases h with
  | waits => exact .inl hq
  | asks => exact .inl hq
  | accepts => exact .inl (by simp)
  | gives => exact .inr (by simp)

theorem taken_prefix_answers (p : Port α) : p.taken <+: p.answers := ⟨p.queued ++ p.due, by simp [answers]⟩

theorem length_answers (p : Port α) : p.answers.length = p.taken.length + p.owed := by
  simp [answers, owed]

/-- A unit that owes nothing has handed over all its answers. -/
theorem answers_of_owed_eq_zero {p : Port α} (h : p.owed = 0) : p.queued = [] ∧ p.due = [] ∧ p.taken = p.answers := by
  obtain ⟨hq, hd⟩ := Nat.add_eq_zero_iff.mp h
  have hq := List.length_eq_zero_iff.mp hq
  have hd := List.length_eq_zero_iff.mp hd
  exact ⟨hq, hd, by simp [answers, hq, hd]⟩

end Port

/-! ### The two units' ports -/

/-- The response words of a unit (30_encoding.md R53). -/
abbrev Rsp : UnitId → Type
  | .enc => ERsp
  | .dec => DRsp

/-- `ENC_DEPTH` or `DEC_DEPTH` (00_scope.md R5). -/
def depth : UnitId → Nat
  | .enc => Config.encDepth
  | .dec => Config.decDepth

/-- A unit of the block as the host sees it. -/
def port : (u : UnitId) → State → Port (Rsp u)
  | .enc, s => ⟨s.encTaken, s.EQ, s.encHeld.toList.map encChunk⟩
  | .dec, s => ⟨s.decTaken, s.DQ, s.decHeld.toList.map decChunk⟩

/-- The answer to the request, if any, that an event brings to the unit's port. -/
def asked : (u : UnitId) → Event → State → List (Rsp u)
  | .enc, e, s => (encPresentedBy e s).map encChunk
  | .dec, e, s => (decPresentedBy e s).map decChunk

theorem port_enc_answers (s : State) : (port .enc s).answers = encAnswers s := rfl

theorem port_dec_answers (s : State) : (port .dec s).answers = decAnswers s := rfl

theorem depth_pos (u : UnitId) : 0 < depth u := by
  cases u <;> exact Nat.succ_pos _

theorem port_schedule (u : UnitId) (s : State) (es : List Event) : port u { s with schedule := es } = port u s := by
  cases u <;> rfl

theorem asked_eq_nil {e : Event} {s : State} (h : presentedBy e s = none) (u : UnitId) : asked u e s = [] := by
  cases u <;> simp [asked, encPresentedBy, decPresentedBy, h]

theorem asked_of_enc {e : Event} {s : State} {w : EReq} (h : presentedBy e s = some (.enc w)) :
    asked .enc e s = [encChunk w] ∧ asked .dec e s = [] := by
  simp [asked, encPresentedBy, decPresentedBy, h]

theorem asked_of_dec {e : Event} {s : State} {w : DReq} (h : presentedBy e s = some (.dec w)) :
    asked .enc e s = [] ∧ asked .dec e s = [decChunk w] := by
  simp [asked, encPresentedBy, decPresentedBy, h]

/-- A unit can accept when a request is held, no reset is asserted and there is room (R38,
70_reset_and_hazards.md R144). -/
theorem canAccept_iff {u : UnitId} {s : State} :
    canAccept u s = true ↔ (port u s).due ≠ [] ∧ s.resetLine = false ∧ (port u s).queued.length < depth u := by
  cases u
  · cases hw : s.encHeld <;> simp [canAccept, port, depth, encReady, hw]
  · cases hw : s.decHeld <;> simp [canAccept, port, depth, decReady, hw]

/-- A unit can deliver when a response is queued and no reset asserted (R39, 70_reset_and_hazards.md R144). -/
theorem canDeliver_iff {u : UnitId} {s : State} :
    canDeliver u s = true ↔ s.resetLine = false ∧ (port u s).queued ≠ [] := by
  cases u <;> simp [canDeliver, port, encRspValid, decRspValid]

/-! ### What a step does to the ports -/

/-- The unit whose transfer it is. -/
def Transfer.unit : Transfer → UnitId
  | .accept u => u
  | .deliver u => u

/-- An acceptance moves the answer due to the end of the unit's queue. -/
theorem port_accept {u : UnitId} {s : State} (h : canAccept u s = true) : ∃ a, (port u s).due = [a] ∧
    port u (transferred (.accept u) s) = ⟨(port u s).taken, (port u s).queued ++ [a], []⟩ := by
  obtain ⟨hdue, -, -⟩ := canAccept_iff.mp h
  cases u
  · cases hw : s.encHeld with
    | none => simp [port, hw] at hdue
    | some w => exact ⟨encChunk w, by simp [port, hw], by simp [port, transferred, hw]⟩
  · cases hw : s.decHeld with
    | none => simp [port, hw] at hdue
    | some w => exact ⟨decChunk w, by simp [port, hw], by simp [port, transferred, hw]⟩

/-- A delivery moves the oldest answer queued to those taken. -/
theorem port_deliver {u : UnitId} {s : State} {a : Rsp u} {q : List (Rsp u)} (h : (port u s).queued = a :: q) :
    port u (transferred (.deliver u) s) = ⟨(port u s).taken ++ [a], q, (port u s).due⟩ := by
  cases u
  · replace h : s.EQ = a :: q := h
    simp [port, transferred, h]
  · replace h : s.DQ = a :: q := h
    simp [port, transferred, h]

/-- A transfer leaves the other unit alone (R42). -/
theorem port_transferred_other {x : Transfer} {v : UnitId} (h : x.unit ≠ v) (s : State) :
    port v (transferred x s) = port v s :=
  match x, v, h with
  | .accept .enc, .dec, _ => rfl
  | .accept .dec, .enc, _ => rfl
  | .deliver .enc, .dec, _ => rfl
  | .deliver .dec, .enc, _ => rfl

/-- A transfer's turn moves at most one answer along, and brings no request. -/
theorem port_afterTransfer (v : UnitId) (x : Transfer) (s : State) :
    (port v s).Moves [] (port v (afterTransfer x s)) := by
  cases hc : canTransfer x s with
  | false => rw [afterTransfer_cannot hc]; exact .waits _
  | true =>
    rw [afterTransfer_can hc]
    by_cases hv : x.unit = v
    · subst hv
      cases x with
      | accept u =>
        obtain ⟨a, hdue, hport⟩ := port_accept hc
        exact hport ▸ .accepts hdue
      | deliver u =>
        obtain ⟨-, hq⟩ := canDeliver_iff.mp hc
        obtain ⟨a, q, hq⟩ := List.exists_cons_of_ne_nil hq
        exact port_deliver hq ▸ .gives hq
    · rw [port_transferred_other hv]; exact .waits _

/-- A step without a reset moves at most one answer of a unit along, or adds the answer to the request it brings. -/
theorem step_port {s t : State} {e : Event} (h : step s = .next t) (he : s.nextEvent = some e)
    (hr : resetsBy e s = false) (u : UnitId) : (port u s).Moves (asked u e s) (port u t) := by
  rcases step_cases h with ⟨hn, -⟩ | ⟨w, hn, -, -⟩ | ⟨w, hn, -, -⟩ | ⟨e', hn, hmove⟩ <;> cases hn.symm.trans he
  · rw [step_transfer hn h, port_schedule u (afterTransfer _ s) s.schedule.tail, asked_eq_nil rfl]
    exact port_afterTransfer ..
  · rw [step_transfer hn h, port_schedule u (afterTransfer _ s) s.schedule.tail, asked_eq_nil rfl]
    exact port_afterTransfer ..
  · cases hmove with
    | waits hp => rw [asked_eq_nil hp, port_schedule u s s.schedule.tail]; exact .waits _
    | asksEnc w p hp _ hf =>
      obtain ⟨henc, hdec⟩ := asked_of_enc hp
      cases u
      · exact henc ▸ .asks (p := port .enc s) (encChunk w) (by simp [port, hf])
      · exact hdec ▸ .waits (port .dec s)
    | asksDec w p hp _ hf =>
      obtain ⟨henc, hdec⟩ := asked_of_dec hp
      cases u
      · exact henc ▸ .waits (port .enc s)
      · exact hdec ▸ .asks (p := port .dec s) (decChunk w) (by simp [port, hf])
    | givesEnc r rs p hp _ _ _ hq =>
      rw [asked_eq_nil hp]
      cases u
      · exact .gives (p := port .enc s) hq
      · exact .waits _
    | givesDec r rs p hp _ _ _ hq =>
      rw [asked_eq_nil hp]
      cases u
      · exact .waits _
      · exact .gives (p := port .dec s) hq
    | resets l p _ hr' => exact absurd (hr.symm.trans hr') Bool.false_ne_true

/-- Settles O40: a step without a reset moves an answer along its unit's list or adds the answer to the request that it
brings to the port. -/
theorem answersKeptInOrder : Obligations.AnswersKeptInOrder := by
  refine fun s t h => ⟨fun hn => ?_, fun e he hr => ?_⟩
  · rw [step_quiet hn] at h; cases h
    exact ⟨rfl, rfl⟩
  · exact ⟨(step_port h he hr .enc).answers, (step_port h he hr .dec).answers⟩

end Sys2Proof.Machine
end

section
/-! The block never stops by itself and comes to rest (spec 20_memory.md R51, 60_exceptions.md R142): the schedule gets
shorter, and after its end each move accepts a request or runs a statement of the host's program. -/

namespace Sys2Proof.Machine

/-! ### What the moves after the schedule's end use up -/

/-- Every step takes one event off the schedule. -/
theorem step_schedule {s t : State} (h : step s = .next t) : t.schedule = s.schedule.tail := by
  rcases step_cases h with ⟨hn, rfl⟩ | ⟨w, hn, -, -⟩ | ⟨w, hn, -, -⟩ | ⟨e, -, hmove⟩
  · rw [(nextEvent_eq_none.mp hn).1, List.tail_nil]
  · rw [step_transfer hn h]
  · rw [step_transfer hn h]
  · cases hmove <;> rfl

/-- The requests that stand on the ports. -/
def heldCount (s : State) : Nat := s.encHeld.toList.length + s.decHeld.toList.length

/-- What is left to do after the schedule's end: a statement may bring a request, which counts for less. -/
def workLeft (s : State) : Nat := 2 * s.program.length + heldCount s

/-- The fair choice is a unit that can accept, or the host that runs its next statement (R51). -/
theorem fairEvent_eq_some {s : State} {e : Event} (h : fairEvent s = some e) :
    (∃ u, e = .transfer (.accept u) ∧ canAccept u s = true) ∨
      e = .host .waiting ∧ ∃ st p, hostNext .waiting s = some (st, p) := by
  unfold fairEvent at h
  split at h
  · cases h; exact .inl ⟨.enc, rfl, ‹_›⟩
  · split at h
    · cases h; exact .inl ⟨.dec, rfl, ‹_›⟩
    · split at h
      · cases h
        obtain ⟨⟨st, p⟩, hx⟩ := Option.isSome_iff_exists.mp ‹_›
        exact .inr ⟨rfl, st, p, hx⟩
      · cases h

theorem heldCount_afterTransfer_accept {u : UnitId} {s : State} (h : canAccept u s = true) :
    heldCount (afterTransfer (.accept u) s) + 1 = heldCount s := by
  rw [afterTransfer_can (x := .accept u) h]
  obtain ⟨hdue, -, -⟩ := canAccept_iff.mp h
  cases u
  · cases hw : s.encHeld <;> simp_all [port, heldCount, transferred, Nat.add_comm]
  · cases hw : s.decHeld <;> simp_all [port, heldCount, transferred]

theorem heldCount_afterTransfer_deliver (u : UnitId) (s : State) :
    heldCount (afterTransfer (.deliver u) s) = heldCount s := by
  unfold afterTransfer
  split
  · cases u <;> rfl
  · rfl

theorem present_work (w : PortWord) (s : State) :
    (present w s).program = s.program ∧ heldCount (present w s) ≤ heldCount s + 1 := by
  unfold present
  split
  · cases w <;> exact ⟨rfl, by simp [heldCount, holdEnc, holdDec, Nat.add_comm]⟩
  · exact ⟨rfl, Nat.le_succ _⟩

/-- A statement of the host brings at most one request to a port, and leaves the program alone. -/
theorem runStmt_work {st : HostStmt} {s t : State} (h : runStmt st s = .next t) :
    t.program = s.program ∧ heldCount t ≤ heldCount s + 1 := by
  cases st with
  | request i => cases h; exact present_work (encode i) s
  | take u =>
    rw [deliver_eq_afterTransfer h, heldCount_afterTransfer_deliver]
    exact ⟨afterTransfer_program .., Nat.le_succ _⟩
  | reset => cases h; exact ⟨rfl, Nat.le_succ _⟩

/-- Each move after the schedule's end leaves less to do. -/
theorem step_workLeft {s t : State} {e : Event} (hs : s.schedule = []) (he : s.nextEvent = some e)
    (h : step s = .next t) : workLeft t < workLeft s := by
  rcases fairEvent_eq_some (nextEvent_nil hs ▸ he) with ⟨u, rfl, hc⟩ | ⟨rfl, st, p, hn⟩
  · have hheld := heldCount_afterTransfer_accept hc
    rw [step_transfer he h]
    simp only [workLeft, heldCount, afterTransfer_program] at *
    omega
  · rw [step_host he, hostTurn, hostNext_schedule, hn] at h
    obtain ⟨hprog, hheld⟩ := runStmt_work h
    obtain ⟨hp, -, -⟩ := hostNext_eq_some.mp hn
    simp only [workLeft, heldCount, hprog, hp, List.length_cons] at *
    omega

/-! ### Runs from the invariant -/

theorem runsSafely_of_inv {s : State} (hs : s.Inv) : s.RunsSafely := by
  intro k
  induction k generalizing s with
  | zero => exact ⟨s, rfl⟩
  | succ k ih =>
    obtain ⟨t, ht⟩ := step_next hs
    rw [runSteps_succ ht]
    exact ih (everyStepKeepsInvariant s t hs ht)

/-- A run that goes one step further back reaches a quiet state too. -/
theorem reachesQuiet_of_step {s t : State} (h : step s = .next t) (ht : ∃ k u, runSteps k t = .next u ∧ u.Quiet) :
    ∃ k u, runSteps k s = .next u ∧ u.Quiet := by
  obtain ⟨k, u, hrun, hq⟩ := ht
  exact ⟨k + 1, u, (runSteps_succ h).trans hrun, hq⟩

/-- After the schedule's end the block comes to rest, since each move leaves less to do. -/
theorem reachesQuiet_of_ended {s : State} (hs : s.Inv) (he : s.schedule = []) :
    ∃ k t, runSteps k s = .next t ∧ t.Quiet := by
  induction hw : workLeft s using Nat.strong_induction_on generalizing s with
  | _ n ih =>
    cases hn : s.nextEvent with
    | none => exact ⟨0, s, rfl, nextEvent_eq_none.mp hn⟩
    | some e =>
      obtain ⟨t, ht⟩ := step_next hs
      exact reachesQuiet_of_step ht <| ih _ (hw ▸ step_workLeft he hn ht) (everyStepKeepsInvariant s t hs ht)
        (by rw [step_schedule ht, he, List.tail_nil]) rfl

theorem reachesQuiet {s : State} (hs : s.Inv) : ∃ k t, runSteps k s = .next t ∧ t.Quiet := by
  induction he : s.schedule generalizing s with
  | nil => exact reachesQuiet_of_ended hs he
  | cons e es ih =>
    obtain ⟨t, ht⟩ := step_next hs
    exact reachesQuiet_of_step ht <|
      ih (everyStepKeepsInvariant s t hs ht) (by rw [step_schedule ht, he, List.tail_cons])

/-- Settles O38: no step from the invariant stops, the schedule is used up event by event, and each move after its end
leaves less to do. -/
theorem invariantRunsNeverStop : Obligations.InvariantRunsNeverStop :=
  fun _ hs => ⟨runsSafely_of_inv hs, reachesQuiet hs⟩

end Sys2Proof.Machine
end

section
/-! With fair turns and a host that takes, every answer owed is handed over (spec 20_memory.md R51): by fair rounds, one
answer of each unit a round at least, and in every endless run that is weakly fair. -/

namespace Sys2Proof.Machine

/-! ### What a turn brings about -/

/-- Only a reset moves the reset input. -/
theorem step_resetLine {s t : State} {e : Event} (h : step s = .next t) (he : s.nextEvent = some e)
    (hr : resetsBy e s = false) : t.resetLine = s.resetLine := by
  rcases step_cases h with ⟨-, rfl⟩ | ⟨w, hn, -, -⟩ | ⟨w, hn, -, -⟩ | ⟨e', hn, hmove⟩
  · rfl
  · rw [step_transfer hn h]; exact afterTransfer_resetLine ..
  · rw [step_transfer hn h]; exact afterTransfer_resetLine ..
  · cases hn.symm.trans he
    cases hmove with
    | resets l p _ hr' => exact absurd (hr.symm.trans hr') Bool.false_ne_true
    | _ => rfl

/-- With an empty queue there is room at every depth, so a request held is accepted in its unit's turn. -/
theorem accept_turn {s t : State} {u : UnitId} (h : step s = .next t)
    (he : s.nextEvent = some (.transfer (.accept u))) (hl : s.resetLine = false) (hq : (port u s).queued = [])
    (hd : (port u s).due ≠ []) : (port u t).queued ≠ [] := by
  have hc : canAccept u s = true := canAccept_iff.mpr ⟨hd, hl, by simpa [hq] using depth_pos u⟩
  obtain ⟨a, -, hport⟩ := port_accept hc
  rw [step_transfer he h, port_schedule u (afterTransfer _ s) s.schedule.tail,
    afterTransfer_can (x := .accept u) hc, hport]
  simp

/-- A unit is asked to deliver by its own turn or by a take that the host's turn runs. -/
theorem deliversBy_eq_some {e : Event} {s : State} {u : UnitId} (h : deliversBy e s = some u) :
    e = .transfer (.deliver u) ∨ ∃ g p, e = .host g ∧ hostNext g s = some (.take u, p) := by
  unfold deliversBy at h
  split at h
  · cases h; exact .inl rfl
  · split at h
    · cases h; exact .inr ⟨_, _, rfl, ‹_›⟩
    · cases h
  · cases h

theorem deliver_port {u : UnitId} {s t : State} (h : deliver u s = .next t) (hl : s.resetLine = false)
    (hq : (port u s).queued ≠ []) : (port u s).taken.length < (port u t).taken.length := by
  obtain ⟨a, q, haq⟩ := List.exists_cons_of_ne_nil hq
  rw [deliver_eq_afterTransfer h, afterTransfer_can (x := .deliver u) (canDeliver_iff.mpr ⟨hl, hq⟩), port_deliver haq]
  simp

/-- A response queued is handed over when its unit is asked to deliver, by the unit's turn or by the host's take. -/
theorem deliver_turn {s t : State} {e : Event} {u : UnitId} (h : step s = .next t) (he : s.nextEvent = some e)
    (hd : deliversBy e s = some u) (hl : s.resetLine = false) (hq : (port u s).queued ≠ []) :
    (port u s).taken.length < (port u t).taken.length := by
  have hport (p : List HostStmt) : port u { s with program := p, schedule := s.schedule.tail } = port u s := by
    cases u <;> rfl
  rcases deliversBy_eq_some hd with rfl | ⟨g, p, rfl, hn⟩
  · rw [step_deliver he] at h
    exact hport s.program ▸ deliver_port h hl (hport s.program ▸ hq)
  · rw [step_host he, hostTurn, hostNext_schedule, hn] at h
    exact hport p ▸ deliver_port h hl (hport p ▸ hq)

/-! ### Fair rounds -/

/-- `s` leads to `t` with reset released and no request brought: the answers are the same, and no more are owed. -/
structure Drains (s t : State) : Prop where
  inv : t.Inv
  released : t.resetLine = false
  answers : ∀ u, (port u t).answers = (port u s).answers
  taken : ∀ u, (port u s).taken.length ≤ (port u t).taken.length

namespace Drains

theorem refl {s : State} (hs : s.Inv) (hl : s.resetLine = false) : Drains s s :=
  ⟨hs, hl, fun _ => rfl, fun _ => le_rfl⟩

theorem trans {s t v : State} (h : Drains s t) (h' : Drains t v) : Drains s v :=
  ⟨h'.inv, h'.released, fun u => (h'.answers u).trans (h.answers u), fun u => (h.taken u).trans (h'.taken u)⟩

theorem taken_add_owed {s t : State} (h : Drains s t) (u : UnitId) :
    (port u t).taken.length + (port u t).owed = (port u s).taken.length + (port u s).owed := by
  rw [← Port.length_answers, ← Port.length_answers, h.answers]

theorem owed_le {s t : State} (h : Drains s t) (u : UnitId) : (port u t).owed ≤ (port u s).owed := by
  have := h.taken_add_owed u
  have := h.taken u
  omega

end Drains

/-- A scheduled transfer drains the units. -/
theorem transfer_drains {s : State} {x : Transfer} {es : List Event} (hs : s.Inv) (hl : s.resetLine = false)
    (h : s.schedule = .transfer x :: es) : ∃ t, step s = .next t ∧ t.schedule = es ∧ Drains s t := by
  obtain ⟨t, ht⟩ := step_next hs
  have hn := nextEvent_cons h
  have hmoves (u : UnitId) : (port u s).Moves [] (port u t) :=
    asked_eq_nil (e := .transfer x) rfl u ▸ step_port ht hn rfl u
  exact ⟨t, ht, by rw [step_schedule ht, h, List.tail_cons], everyStepKeepsInvariant s t hs ht,
    (step_resetLine ht hn rfl).trans hl, fun u => by rw [(hmoves u).answers, List.append_nil],
    fun u => (hmoves u).taken_prefix.length_le⟩

/-- A unit that has its turn to accept and to deliver owes one answer less, if any. -/
theorem turns_drain {s : State} {u : UnitId} {es : List Event} (hs : s.Inv) (hl : s.resetLine = false)
    (h : s.schedule = .transfer (.accept u) :: .transfer (.deliver u) :: es) :
    ∃ t, runSteps 2 s = .next t ∧ t.schedule = es ∧ Drains s t ∧ (port u t).owed ≤ (port u s).owed - 1 := by
  obtain ⟨v, hv, hvs, hsv⟩ := transfer_drains hs hl h
  obtain ⟨t, ht, hts, hvt⟩ := transfer_drains hsv.inv hsv.released hvs
  refine ⟨t, by rw [runSteps_succ hv, runSteps_succ ht, runSteps_zero], hts, hsv.trans hvt, ?_⟩
  have hsum := hsv.taken_add_owed u
  have hsum' := hvt.taken_add_owed u
  have htaken := hsv.taken u
  have htaken' := hvt.taken u
  have hn := nextEvent_cons h
  have hqueued : (port u s).owed = 0 ∨ (port u v).queued ≠ [] ∨
      (port u s).taken.length < (port u v).taken.length := by
    by_cases hq : (port u s).queued = []
    · by_cases hd : (port u s).due = []
      · exact .inl (by simp [Port.owed, hq, hd])
      · exact .inr (.inl (accept_turn hv hn hl hq hd))
    · exact .inr ((step_port hv hn rfl u).queued_or_taken hq)
  rcases hqueued with h₀ | hq | hlt
  · omega
  · have := deliver_turn ht (nextEvent_cons hvs) rfl hsv.released hq
    omega
  · omega

/-- In `n` fair rounds each unit hands over `n` answers, or all it owes. -/
theorem fairRounds_drain {n : Nat} {s : State} (hs : s.Inv) (hl : s.resetLine = false) (h : s.schedule = fairRounds n) :
    ∃ t, runSteps (4 * n) s = .next t ∧ Drains s t ∧ ∀ u, (port u t).owed ≤ (port u s).owed - n := by
  induction n generalizing s with
  | zero => exact ⟨s, rfl, .refl hs hl, fun _ => le_rfl⟩
  | succ n ih =>
    obtain ⟨v, hv, hvs, hsv, henc⟩ := turns_drain (u := .enc) hs hl h
    obtain ⟨w, hw, hws, hvw, hdec⟩ := turns_drain (u := .dec) hsv.inv hsv.released hvs
    obtain ⟨t, ht, hwt, howed⟩ := ih hvw.inv hvw.released hws
    refine ⟨t, ?_, (hsv.trans hvw).trans hwt, fun u => ?_⟩
    · rw [show 4 * (n + 1) = 2 + (2 + 4 * n) by omega, runSteps_add hv, runSteps_add hw, ht]
    · have hu := howed u
      cases u
      · have := hvw.owed_le .enc
        omega
      · have := hsv.owed_le .dec
        omega

theorem fairRounds_atRest {n : Nat} {s : State} (hs : s.Inv) (hl : s.resetLine = false) (h : s.schedule = fairRounds n)
    (hn : ∀ u, (port u s).owed ≤ n) :
    ∃ t, runSteps (4 * n) s = .next t ∧ t.AtRest ∧ t.encTaken = encAnswers s ∧ t.decTaken = decAnswers s := by
  obtain ⟨t, ht, hdrains, howed⟩ := fairRounds_drain hs hl h
  have hdone (u : UnitId) := Port.answers_of_owed_eq_zero (p := port u t) (by have := howed u; have := hn u; omega)
  obtain ⟨hEQ, henc, hencTaken⟩ := hdone .enc
  obtain ⟨hDQ, hdec, hdecTaken⟩ := hdone .dec
  exact ⟨t, ht, ⟨hEQ, hDQ, by simpa [port] using henc, by simpa [port] using hdec, hdrains.released⟩,
    hencTaken.trans (hdrains.answers .enc), hdecTaken.trans (hdrains.answers .dec)⟩

/-! ### Endless fair runs -/

/-- An endless run of one unit's port without a reset, in which no request is held for ever before an empty queue and no
response is queued for ever. -/
structure Port.FairRun {α : Type} (p : Nat → Port α) : Prop where
  moves : ∀ n, ∃ l, (p n).Moves l (p (n + 1))
  accepts : ∀ n, ∃ m, n ≤ m ∧ ((p m).due = [] ∨ (p m).queued ≠ [])
  gives : ∀ n, ∃ m, n ≤ m ∧ ((p m).queued = [] ∨ (p m).taken.length < (p (m + 1)).taken.length)

namespace Port.FairRun

variable {α : Type} {p : Nat → Port α}

theorem taken_prefix (h : FairRun p) {n m : Nat} (hnm : n ≤ m) : (p n).taken <+: (p m).taken := by
  induction m, hnm using Nat.le_induction with
  | base => exact List.prefix_rfl
  | succ m _ ih =>
    obtain ⟨l, hm⟩ := h.moves m
    exact ih.trans hm.taken_prefix

theorem answers_prefix (h : FairRun p) {n m : Nat} (hnm : n ≤ m) : (p n).answers <+: (p m).answers := by
  induction m, hnm using Nat.le_induction with
  | base => exact List.prefix_rfl
  | succ m _ ih =>
    obtain ⟨l, hm⟩ := h.moves m
    exact ih.trans ⟨l, hm.answers.symm⟩

/-- While nothing is handed over, a response queued stays queued. -/
theorem queued_stays (h : FairRun p) {n m : Nat} (hno : ∀ k, n ≤ k → (p k).taken.length ≤ (p n).taken.length)
    (hq : (p n).queued ≠ []) (hnm : n ≤ m) : (p m).queued ≠ [] := by
  induction m, hnm using Nat.le_induction with
  | base => exact hq
  | succ m hnm ih =>
    obtain ⟨l, hm⟩ := h.moves m
    have hle := (h.taken_prefix hnm).length_le
    have hno := hno (m + 1) (by omega)
    exact (hm.queued_or_taken ih).resolve_right (by omega)

/-- A unit that owes an answer hands one over at some later moment. -/
theorem taken_grows (h : FairRun p) {n : Nat} (hn : (p n).taken.length < (p n).answers.length) :
    ∃ m, n ≤ m ∧ (p n).taken.length < (p m).taken.length := by
  by_contra! hno
  obtain ⟨m, hnm, hm⟩ := h.accepts n
  have hqueued : (p m).queued ≠ [] := by
    refine hm.elim (fun hdue hq => ?_) id
    have hle := (h.answers_prefix hnm).length_le
    have hno := hno m hnm
    simp only [answers, hdue, hq, List.append_nil] at hle hn
    omega
  obtain ⟨k, hmk, hk⟩ := h.gives m
  have htaken (j : Nat) (hj : m ≤ j) : (p j).taken.length ≤ (p m).taken.length :=
    (hno j (hnm.trans hj)).trans (h.taken_prefix hnm).length_le
  rcases hk with hk | hk
  · exact h.queued_stays htaken hqueued hmk hk
  · have := (h.taken_prefix (hnm.trans hmk)).length_le
    have := hno (k + 1) (by omega)
    omega

/-- Whatever number of answers there are at some moment, as many are handed over at some later one. -/
theorem taken_reaches (h : FairRun p) (n : Nat) {k : Nat} (hk : k ≤ (p n).answers.length) :
    ∃ m, n ≤ m ∧ k ≤ (p m).taken.length := by
  induction k with
  | zero => exact ⟨n, le_rfl, Nat.zero_le _⟩
  | succ k ih =>
    obtain ⟨m, hnm, hm⟩ := ih (by omega)
    by_cases hlt : k < (p m).taken.length
    · exact ⟨m, hnm, hlt⟩
    · have hle := (h.answers_prefix hnm).length_le
      obtain ⟨j, hmj, hj⟩ := h.taken_grows (n := m) (by omega)
      exact ⟨j, hnm.trans hmj, by omega⟩

/-- The answers at any moment have all been handed over, in order, from some later moment on. -/
theorem answers_taken (h : FairRun p) (n : Nat) : ∃ m, n ≤ m ∧ ∀ k, m ≤ k → (p n).answers <+: (p k).taken := by
  obtain ⟨m, hnm, hm⟩ := h.taken_reaches n le_rfl
  refine ⟨m, hnm, fun k hmk => List.prefix_of_prefix_length_le (h.answers_prefix (hnm.trans hmk))
    (taken_prefix_answers _) (hm.trans (h.taken_prefix hmk).length_le)⟩

end Port.FairRun

/-! ### Plays -/

@[simp] theorem resetsBy_schedule (e : Event) (s : State) (es : List Event) :
    resetsBy e { s with schedule := es } = resetsBy e s := by
  cases e <;> simp [resetsBy]

@[simp] theorem deliversBy_schedule (e : Event) (s : State) (es : List Event) :
    deliversBy e { s with schedule := es } = deliversBy e s := by
  cases e <;> simp [deliversBy]

section

variable {f : Nat → Event} {r : Nat → State} (hplay : Play f r) (hl : (r 0).resetLine = false)
  (hr : ∀ n, resetsBy (f n) (r n) = false)

include hplay hr

/-- A play without a reset moves each unit's port as its steps do. -/
theorem play_port (u : UnitId) (n : Nat) : (port u (r n)).Moves (asked u (f n) { r n with schedule := [f n] })
    (port u (r (n + 1))) :=
  port_schedule u (r n) [f n] ▸ step_port (hplay n).2 (nextEvent_cons rfl) (by simpa using hr n) u

include hl

/-- Along a play without a reset the reset input stays released. -/
theorem play_released (n : Nat) : (r n).resetLine = false := by
  induction n with
  | zero => exact hl
  | succ n ih => exact (step_resetLine (hplay n).2 (nextEvent_cons rfl) (by simpa using hr n)).trans ih

/-- Under weak fairness (R51) with a host that takes, neither unit keeps a request or a response for ever. -/
theorem play_fairRun (hfair : WeaklyFair (fun _ _ => True) f r) (u : UnitId) : Port.FairRun fun n => port u (r n) where
  moves n := ⟨_, play_port hplay hr u n⟩
  accepts n := by
    obtain ⟨m, hnm, hm⟩ := (hfair u n).1
    by_cases hd : (port u (r m)).due = []
    · exact ⟨m, hnm, .inl hd⟩
    by_cases hq : (port u (r m)).queued = []
    · have hc : canAccept u (r m) = true :=
        canAccept_iff.mpr ⟨hd, play_released hplay hl hr m, by simpa [hq] using depth_pos u⟩
      have he : f m = .transfer (.accept u) := hm.resolve_right (by simp [hc])
      have hport := port_schedule u (r m) [f m]
      exact ⟨m + 1, by omega, .inr (accept_turn (hplay m).2 (nextEvent_cons (by rw [he]))
        (play_released hplay hl hr m) (hport ▸ hq) (hport ▸ hd))⟩
    · exact ⟨m, hnm, .inr hq⟩
  gives n := by
    obtain ⟨m, hnm, hm⟩ := (hfair u n).2
    refine ⟨m, hnm, or_iff_not_imp_left.mpr fun hq => ?_⟩
    have hc : canDeliver u (r m) = true := canDeliver_iff.mpr ⟨play_released hplay hl hr m, hq⟩
    have hd : deliversBy (f m) (r m) = some u := hm.resolve_right (by simp [hc])
    have hport := port_schedule u (r m) [f m]
    exact hport ▸ deliver_turn (hplay m).2 (nextEvent_cons rfl) (by simpa using hd)
      (play_released hplay hl hr m) (hport ▸ hq)

end

/-- Settles O41: each fair round hands over an answer of each unit that owes one; and in a weakly fair play a request
held before an empty queue is accepted and a response queued is handed over, so the answers of any moment are taken. -/
theorem fairRoundsDrainBothUnits : Obligations.FairRoundsDrainBothUnits := by
  refine ⟨fun s n hs hl h henc hdec => fairRounds_atRest hs hl h fun u => ?_, fun f r hplay hfair hl hr n => ?_⟩
  · cases u
    · simpa [Port.owed, port] using (Nat.add_comm ..).trans_le henc
    · simpa [Port.owed, port] using (Nat.add_comm ..).trans_le hdec
  · obtain ⟨i, hni, hi⟩ := (play_fairRun hplay hl hr hfair .enc).answers_taken n
    obtain ⟨j, hnj, hj⟩ := (play_fairRun hplay hl hr hfair .dec).answers_taken n
    exact ⟨max i j, by omega, hi _ (le_max_left ..), hj _ (le_max_right ..)⟩

end Sys2Proof.Machine
end

section
/-! A word presented to a port and the host's turn, each the next event of the schedule (spec 20_memory.md R39, R50,
30_encoding.md R69): what stands on the port afterwards, and when a statement of the host's program runs or waits. -/

namespace Sys2Proof.Machine

section

variable {s : State} {es : List Event}

/-! ### A word presented -/

theorem step_scheduled_present {w : PortWord} (h : s.schedule = .present w :: es) :
    step s = .next (present w { s with schedule := es }) := by
  rw [step_present (nextEvent_cons h), h, List.tail_cons]

/-! ### The host's turn waits or runs a statement -/

/-- A waiting host is free while both ports are, an overlapping one always (30_encoding.md R69; log 18). -/
theorem hostFree_iff {g : HostStyle} :
    hostFree g s = true ↔ g = .overlapping ∨ s.encHeld = none ∧ s.decHeld = none := by
  cases g <;> simp [hostFree]

theorem hostFree_waiting_of_held (h : s.encHeld ≠ none ∨ s.decHeld ≠ none) : hostFree .waiting s = false := by
  rw [Bool.eq_false_iff, ne_eq, hostFree_iff]
  rintro (hg | ⟨henc, hdec⟩)
  · cases hg
  · exact h.elim (absurd henc) (absurd hdec)

/-- With no statement to run, nothing but the event goes. -/
theorem step_host_waits {g : HostStyle} (h : s.schedule = .host g :: es) (hn : hostNext g s = none) :
    step s = .next { s with schedule := es } := by
  rw [step_host (nextEvent_cons h), hostTurn, hostNext_schedule, hn, h, List.tail_cons]

/-- A free host whose next statement can run does what the statement says, and has the rest of its program left. -/
theorem step_host_runs {g : HostStyle} {st : HostStmt} {p : List HostStmt} (h : s.schedule = .host g :: es)
    (hf : hostFree g s = true) (hp : s.program = st :: p) (hr : stmtReady st s = true) :
    step s = runStmt st { s with program := p, schedule := es } := by
  have hn := hostNext_eq_some.mpr ⟨hp, hf, hr⟩
  rw [step_host (nextEvent_cons h), hostTurn, hostNext_schedule, hn, h, List.tail_cons]

/-! ### When a statement can run -/

theorem stmtReady_request_enc {i : Instr} {w : EReq} (hi : encode i = .enc w) :
    stmtReady (.request i) s = s.encHeld.isNone := by
  simp [stmtReady, hi, PortWord.unit]

theorem stmtReady_request_dec {i : Instr} {w : DReq} (hi : encode i = .dec w) :
    stmtReady (.request i) s = s.decHeld.isNone := by
  simp [stmtReady, hi, PortWord.unit]

/-- A take can run exactly when its unit can deliver, so it waits on an empty queue or an asserted reset (R39). -/
theorem stmtReady_take_eq_false {u : UnitId} :
    stmtReady (.take u) s = false ↔ (port u s).queued = [] ∨ s.resetLine = true := by
  rw [stmtReady, Bool.eq_false_iff, ne_eq, canDeliver_iff, not_and_or, not_not, Bool.not_eq_false, or_comm]

/-! ### What a statement that runs does -/

theorem runStmt_request_enc {i : Instr} {w : EReq} (hi : encode i = .enc w) (hf : s.encHeld = none) :
    runStmt (.request i) s = .next (holdEnc w s) := by
  rw [runStmt, hi, present_enc_free hf]

theorem runStmt_request_dec {i : Instr} {w : DReq} (hi : encode i = .dec w) (hf : s.decHeld = none) :
    runStmt (.request i) s = .next (holdDec w s) := by
  rw [runStmt, hi, present_dec_free hf]

/-- A possible response at the head of the queue is handed over unless reset is asserted (R39). -/
theorem deliverEnc_oldest {r : ERsp} {rs : List ERsp} (hl : s.resetLine = false) (hq : s.EQ = r :: rs)
    (hr : eRspFault r = none) : deliverEnc s = .next { s with EQ := rs, encTaken := s.encTaken ++ [r] } := by
  simp [deliverEnc, hl, hq, hr]

theorem deliverDec_oldest {r : DRsp} {rs : List DRsp} (hl : s.resetLine = false) (hq : s.DQ = r :: rs)
    (hr : dRspFault r = none) : deliverDec s = .next { s with DQ := rs, decTaken := s.decTaken ++ [r] } := by
  simp [deliverDec, hl, hq, hr]

/-! ### The statements of a free host, one by one -/

variable {g : HostStyle} {p : List HostStmt} (h : s.schedule = .host g :: es) (hf : hostFree g s = true)

include h hf

theorem step_host_request_enc {i : Instr} {w : EReq} (hp : s.program = .request i :: p) (hi : encode i = .enc w) :
    (s.encHeld = none → step s = .next { s with encHeld := some w, program := p, schedule := es }) ∧
      (s.encHeld ≠ none → step s = .next { s with schedule := es }) := by
  have hready := stmtReady_request_enc (s := s) hi
  constructor
  · intro he
    exact (step_host_runs h hf hp (by simp [hready, he])).trans (runStmt_request_enc hi he)
  · intro he
    exact step_host_waits h (hostNext_not_ready hp (by simp [hready, Option.isSome_iff_ne_none, he]))

theorem step_host_request_dec {i : Instr} {w : DReq} (hp : s.program = .request i :: p) (hi : encode i = .dec w) :
    (s.decHeld = none → step s = .next { s with decHeld := some w, program := p, schedule := es }) ∧
      (s.decHeld ≠ none → step s = .next { s with schedule := es }) := by
  have hready := stmtReady_request_dec (s := s) hi
  constructor
  · intro hd
    exact (step_host_runs h hf hp (by simp [hready, hd])).trans (runStmt_request_dec hi hd)
  · intro hd
    exact step_host_waits h (hostNext_not_ready hp (by simp [hready, Option.isSome_iff_ne_none, hd]))

/-- A take that finds a response offered is its unit's delivery. -/
theorem step_host_take {u : UnitId} (hp : s.program = .take u :: p) (hl : s.resetLine = false)
    (hq : (port u s).queued ≠ []) : step s = deliver u { s with program := p, schedule := es } :=
  step_host_runs h hf hp (canDeliver_iff.mpr ⟨hl, hq⟩)

theorem step_host_take_enc {r : ERsp} {rs : List ERsp} (hp : s.program = .take .enc :: p) (hl : s.resetLine = false)
    (hq : s.EQ = r :: rs) (hr : eRspFault r = none) :
    step s = .next { s with EQ := rs, encTaken := s.encTaken ++ [r], program := p, schedule := es } :=
  (step_host_take h hf hp hl (by simp [port, hq])).trans (deliverEnc_oldest hl hq hr)

theorem step_host_take_dec {r : DRsp} {rs : List DRsp} (hp : s.program = .take .dec :: p) (hl : s.resetLine = false)
    (hq : s.DQ = r :: rs) (hr : dRspFault r = none) :
    step s = .next { s with DQ := rs, decTaken := s.decTaken ++ [r], program := p, schedule := es } :=
  (step_host_take h hf hp hl (by simp [port, hq])).trans (deliverDec_oldest hl hq hr)

end

/-- Settles O32: a presented word stands on its free port; the host's turn waits unless the host is free and its next
statement can run, and then it is that statement's effect; a quiet block has no next event. -/
theorem presentedRequestWaitsItsTurn : Obligations.PresentedRequestWaitsItsTurn := by
  refine fun s es => ⟨fun w hs => ⟨fun he => ?_, fun v he => ?_⟩, fun w hs => ⟨fun hd => ?_, fun v hd => ?_⟩,
    fun g hs => ⟨fun hp => ?_, fun hg hheld => ?_, fun hfree st p hp => ?_⟩, fun hq => ?_⟩
  · exact (step_scheduled_present hs).trans (congrArg _ (present_enc_free he))
  · exact (step_scheduled_present hs).trans (congrArg _ (present_enc_occupied he))
  · exact (step_scheduled_present hs).trans (congrArg _ (present_dec_free hd))
  · exact (step_scheduled_present hs).trans (congrArg _ (present_dec_occupied hd))
  · exact step_host_waits hs (hostNext_ended hp)
  · exact step_host_waits hs (hostNext_not_free (hg ▸ hostFree_waiting_of_held hheld))
  · have hf := hostFree_iff.mpr hfree
    refine ⟨?_, ?_, ?_, ?_, ?_⟩
    · rintro i w rfl hi
      exact step_host_request_enc hs hf hp hi
    · rintro i w rfl hi
      exact step_host_request_dec hs hf hp hi
    · rintro rfl
      exact ⟨fun hn => step_host_waits hs (hostNext_not_ready hp (stmtReady_take_eq_false.mpr hn)),
        fun r rs hl hq hr => step_host_take_enc hs hf hp hl hq hr⟩
    · rintro rfl
      exact ⟨fun hn => step_host_waits hs (hostNext_not_ready hp (stmtReady_take_eq_false.mpr hn)),
        fun r rs hl hq hr => step_host_take_dec hs hf hp hl hq hr⟩
    · rintro rfl
      exact step_host_runs hs hf hp rfl
  · exact step_quiet (nextEvent_eq_none.mpr hq)

end Sys2Proof.Machine
end

section
/-! What the encoder answers (spec 40_encoder.md R71-R86): the fields of an `OK` response, the response of each legal
form, the lanes a request is read from, and the padding bits of a chunk. -/

namespace Sys2Proof.Machine

/-! ### The fields of an `OK` response -/

theorem eRspStatus_encOk (gs : List Group) : eRspStatus (encOk gs) = 0b00 := eRspStatus_word ..

theorem eRspCnt_encOk {gs : List Group} (h : gs.length ≤ 8) : (eRspCnt (encOk gs)).toNat = gs.length := by
  rw [encOk, eRspCnt_word, BitVec.toNat_ofNat, Nat.mod_eq_of_lt (by omega)]

theorem lane8_encOk {gs : List Group} {k : Nat} {g : Group} (hk : k < 8) (h : gs[k]? = some g) :
    lane8 (eRspSym (encOk gs)) k = alpha g := by
  simp only [encOk, eRspSym_word, lane8_symWord _ hk, h]

theorem lane8_encOk_beyond {gs : List Group} {k : Nat} (hk : k < 8) (h : gs.length ≤ k) :
    lane8 (eRspSym (encOk gs)) k = 0x00 := by
  simp only [encOk, eRspSym_word, lane8_symWord _ hk, List.getElem?_eq_none h]

/-! ### Each form's answer -/

/-- A form answers its groups' symbols when its word holds its payload and is accepted with the `OK` response of the
groups. The lanes of a written-out payload, and the acceptance that the form's own meaning is, are routine. -/
theorem encAnswers_of_payload {i : Instr} {w : EReq} {payload : List Byte} {n : Nat} {groups : List Group}
    (hi : encode i = .enc w) (hn : groups.length = n) (hn8 : n ≤ 8)
    (hp : (List.range (eReqLen w).toNat).map (blane (eReqData w)) = payload := by
      simp (disch := decide) only [eReqLen_word, eReqData_word, BitVec.reduceToNat, List.range_succ, List.range_zero,
        List.nil_append, List.cons_append, List.map_cons, List.map_nil, blane, Nat.reduceMul, Nat.reduceSub,
        BitVec.extractLsb'_append_eq_of_le, BitVec.extractLsb'_append_eq_of_add_le, BitVec.extractLsb'_eq_self])
    (hx : ∀ s, exec i s = acceptEnc w (encOk groups) s := by intro; rfl) :
    EncAnswers i payload n groups := by
  subst hp hn
  refine ⟨⟨w, hi, by simp, fun k b hb => ?_⟩, fun s hs => ⟨encOk groups, ?_, eRspStatus_encOk groups,
    eRspCnt_encOk hn8, rfl, fun k g hg => ?_, fun k hk hk8 => lane8_encOk_beyond hk8 hk⟩⟩
  · obtain ⟨hk, rfl⟩ := List.getElem?_eq_some_iff.mp hb
    simp
  · exact (hx s).trans (acceptEnc_ready (encReady_iff.mpr hs))
  · exact lane8_encOk ((List.getElem?_eq_some_iff.mp hg).1.trans_le hn8) hg

/-- Settles O6: ENC1's own meaning queues the groups of R78, the second filled up with two zero bits. -/
theorem enc1AnswersItsSymbols : Obligations.Enc1AnswersItsSymbols :=
  fun _ _ => encAnswers_of_payload rfl rfl (by decide)

/-- Settles O7: ENC2's own meaning queues the groups of R79, the fourth filled up with four zero bits. -/
theorem enc2AnswersItsSymbols : Obligations.Enc2AnswersItsSymbols :=
  fun _ _ _ => encAnswers_of_payload rfl rfl (by decide)

/-- Settles O8: ENC3's own meaning queues the groups of R80, the fifth filled up with one zero bit. -/
theorem enc3AnswersItsSymbols : Obligations.Enc3AnswersItsSymbols :=
  fun _ _ _ _ => encAnswers_of_payload rfl rfl (by decide)

/-- Settles O9: ENC4's own meaning queues the groups of R81, the seventh filled up with three zero bits. -/
theorem enc4AnswersItsSymbols : Obligations.Enc4AnswersItsSymbols :=
  fun _ _ _ _ _ => encAnswers_of_payload rfl rfl (by decide)

/-- Settles O10: ENC5's own meaning queues all eight groups of the chunk (R73, R82). -/
theorem enc5AnswersItsSymbols : Obligations.Enc5AnswersItsSymbols :=
  fun _ _ _ _ _ => encAnswers_of_payload rfl rfl (by decide)

/-- Settles O22: every encoder form is the acceptance of its word with `EncChunk` of it, and an acceptance with room
queues the response. -/
theorem encFormsAnswerEncChunk : Obligations.EncFormsAnswerEncChunk :=
  fun _ _ hi s hs => (exec_eq_acceptEnc hi s).trans (acceptEnc_ready (encReady_iff.mpr hs))

/-! ### The lanes a request is read from -/

theorem encByte_of_lt {w : EReq} {i : Nat} (h : i < (eReqLen w).toNat) : encByte w i = blane (eReqData w) i := if_pos h

theorem encByte_of_le {w : EReq} {i : Nat} (h : (eReqLen w).toNat ≤ i) : encByte w i = 0x00 := if_neg (by omega)

/-- `EncChunk` reads the length and the chunk bytes of a request, nothing else. -/
theorem encChunk_congr {w w' : EReq} (hl : eReqLen w = eReqLen w') (hb : encByte w = encByte w') :
    encChunk w = encChunk w' := by
  simp only [encChunk, hl, hb]

/-- Settles O42: chunk bytes at or beyond `LEN` are 0x00 in both requests, those below are the lanes they share. -/
theorem encoderIgnoresLanesBeyondLen : Obligations.EncoderIgnoresLanesBeyondLen := by
  refine fun w w' hl hlanes => encChunk_congr hl (funext fun i => ?_)
  rcases Nat.lt_or_ge i (eReqLen w).toNat with h | h
  · rw [encByte_of_lt h, encByte_of_lt (hl ▸ h), hlanes i h]
  · rw [encByte_of_le h, encByte_of_le (hl ▸ h)]

/-! ### The count and the symbols of a response -/

/-- The number of symbols is 0, 2, 4, 5, 7 or 8, and they reach past the last bit of the bytes (R72). -/
theorem encCount_spec {len : Nat} (h : len ≤ 5) :
    encCount len ∈ [0, 2, 4, 5, 7, 8] ∧ 8 * len ≤ 5 * encCount len := by
  interval_cases len <;> decide

theorem encCount_le {len : Nat} (h : len ≤ 5) : encCount len ≤ 8 := by
  unfold encCount; omega

theorem length_take_chunkGroups (b : Nat → Byte) {n : Nat} (h : n ≤ 8) : ((chunkGroups b).take n).length = n := by
  simpa [chunkGroups] using h

/-- `EncChunk` of a legal request is the `OK` response with the first groups of its chunk, as many as R72 says. -/
theorem encChunk_legal {w : EReq} (h : (eReqLen w).toNat ≤ 5) :
    encChunk w = encOk ((chunkGroups (encByte w)).take (encCount (eReqLen w).toNat)) :=
  (if_neg (by omega)).trans (encOk_take_chunkGroups _ (encCount_le h)).symm

/-- ENC reports `OK` for the legal lengths alone (R76). -/
theorem eReqLen_le_of_ok {w : EReq} (h : eRspStatus (encChunk w) = 0b00) : (eReqLen w).toNat ≤ 5 := by
  by_contra hlen
  rw [encChunk_illegal (by omega)] at h
  exact absurd h (by decide)

theorem eRspCnt_encChunk {w : EReq} (h : (eReqLen w).toNat ≤ 5) :
    (eRspCnt (encChunk w)).toNat = encCount (eReqLen w).toNat := by
  have hlen := length_take_chunkGroups (encByte w) (encCount_le h)
  rw [encChunk_legal h, eRspCnt_encOk (hlen.trans_le (encCount_le h)), hlen]

/-- A symbol lane below the count holds the symbol of its group of the chunk (R71). -/
theorem lane8_encChunk {w : EReq} (h : (eReqLen w).toNat ≤ 5) {k : Nat} (hk : k < encCount (eReqLen w).toNat) :
    lane8 (eRspSym (encChunk w)) k = alpha (groupOf (byteWord (encByte w)) k) := by
  have hk8 : k < 8 := hk.trans_le (encCount_le h)
  rw [encChunk_legal h]
  exact lane8_encOk hk8 ((List.getElem?_take_of_lt hk).trans (chunkGroups_getElem? _ hk8))

theorem alpha_mem_alphabet (g : Group) : alpha g ∈ alphabet := by
  revert g; decide

@[simp] theorem valueOf_alpha (g : Group) : valueOf (alpha g) = g := congrArg InvEntry.value (inv_alpha g)

/-! ### The padding of a chunk -/

/-- A bit of a packed byte word is a bit of one of its lanes (30_encoding.md R56). -/
theorem getLsbD_byteWord (f : Nat → Byte) {j : Nat} (h : j < 40) :
    (byteWord f).getLsbD j = (f (4 - j / 8)).getLsbD (j % 8) := by
  rw [← blane_byteWord f (i := 4 - j / 8) (by omega), blane, BitVec.getLsbD_extractLsb',
    decide_eq_true (Nat.mod_lt j (by decide)), Bool.true_and]
  exact congrArg _ (by omega)

/-- The bits of a chunk after its payload are zero (R74). -/
theorem getLsbD_chunk_eq_false (w : EReq) {j : Nat} (h : j + 8 * (eReqLen w).toNat < 40) :
    (byteWord (encByte w)).getLsbD j = false := by
  rw [getLsbD_byteWord _ (by omega), encByte_of_le (by omega)]
  exact BitVec.getLsbD_zero

/-- A bit of a group that lies after the payload is zero: bit `i` of group `k` is the chunk's bit `5k + 4 - i` from the
most significant (R73). -/
theorem getLsbD_groupOf_eq_false (w : EReq) {k i : Nat} (hk : k < 8) (h : 8 * (eReqLen w).toNat + i < 5 * k + 5) :
    (groupOf (byteWord (encByte w)) k).getLsbD i = false := by
  rw [groupOf, BitVec.getLsbD_extractLsb', getLsbD_chunk_eq_false w (by omega), Bool.and_false]

/-- A group whose first bit lies after the payload is zero. -/
theorem groupOf_eq_zero (w : EReq) {k : Nat} (hk : k < 8) (h : 8 * (eReqLen w).toNat ≤ 5 * k) :
    groupOf (byteWord (encByte w)) k = 0 :=
  BitVec.eq_of_getLsbD_eq fun i hi => (getLsbD_groupOf_eq_false w hk (by omega)).trans BitVec.getLsbD_zero.symm

/-- The low bits of a group that lie after the payload are zero. -/
theorem groupOf_mod_eq_zero (w : EReq) {k : Nat} (hk : k < 8) :
    (groupOf (byteWord (encByte w)) k).toNat % 2 ^ (5 * (k + 1) - 8 * (eReqLen w).toNat) = 0 := by
  refine Nat.eq_of_testBit_eq fun i => ?_
  rw [Nat.testBit_mod_two_pow, Nat.zero_testBit, Bool.and_eq_false_imp, decide_eq_true_iff]
  exact fun hi => getLsbD_groupOf_eq_false w hk (by omega)

/-- Settles O45: the symbols are those of the chunk's groups, and every bit of a group after the payload is zero. -/
theorem encoderResponseProperties : Obligations.EncoderResponseProperties := by
  intro w hok
  have hlen := eReqLen_le_of_ok hok
  obtain ⟨hcount, hreach⟩ := encCount_spec hlen
  have hn := encCount_le hlen
  simp only [eRspCnt_encChunk hlen]
  refine ⟨hcount, fun k hk => ?_, fun hpos => ?_, fun k hk hk8 => ?_, hreach⟩
  · rw [lane8_encChunk hlen hk]
    exact alpha_mem_alphabet _
  · rw [lane8_encChunk hlen (by omega), valueOf_alpha]
    have hlast := groupOf_mod_eq_zero w (k := encCount (eReqLen w).toNat - 1) (by omega)
    rwa [Nat.sub_add_cancel hpos] at hlast
  · have hafter : 8 * (eReqLen w).toNat ≤ 5 * k := by omega
    exact ⟨hafter, groupOf_eq_zero w hk8 hafter⟩

end Sys2Proof.Machine
end

section
/-! What the decoder answers (spec 41_decoder.md R87-R107): the scan of the input symbols, the response of each legal
form, and what of a request its response depends on. -/

namespace Sys2Proof.Machine

/-! ### The scan of a chunk -/

theorem firstInvalid_eq_none {l : List Sym} : firstInvalid l = none ↔ AllValid l := firstInvalidFrom_eq_none

theorem firstInvalid_eq_some {l : List Sym} {k : Nat} : firstInvalid l = some k ↔ FirstInvalidAt l k := by
  simp [firstInvalid, firstInvalidFrom_eq_some, FirstInvalidAt]

theorem FirstInvalidAt.lt_length {l : List Sym} {k : Nat} (h : FirstInvalidAt l k) : k < l.length := by
  obtain ⟨s, hs, -, -⟩ := h
  exact (List.getElem?_eq_some_iff.mp hs).1

/-- The scan reads the `INV` entries of the symbols, nothing else (R87, R88). -/
theorem firstInvalidFrom_congr {l l' : List Sym} (h : l.map inv = l'.map inv) (k : Nat) :
    firstInvalidFrom k l = firstInvalidFrom k l' := by
  induction l generalizing k l' with
  | nil => rw [List.map_eq_nil_iff.mp h.symm]
  | cons s rest ih =>
    obtain ⟨s', rest', rfl, hs, hrest⟩ := List.map_eq_cons_iff.mp h.symm
    rw [firstInvalidFrom, firstInvalidFrom, hs, ih hrest.symm]

/-! ### The response of a legal form -/

theorem decAnswer_of_allValid {input : List Sym} (h : AllValid input) (bytes : List Byte) :
    decAnswer input bytes = decOk bytes := by
  rw [decAnswer, firstInvalid_eq_none.mpr h]

theorem decAnswer_of_firstInvalidAt {input : List Sym} {k : Nat} (h : FirstInvalidAt input k) (bytes : List Byte) :
    decAnswer input bytes = decInvalid k := by
  rw [decAnswer, firstInvalid_eq_some.mpr h]

theorem dRspLen_decOk {bs : List Byte} (h : bs.length ≤ 5) : (dRspLen (decOk bs)).toNat = bs.length := by
  rw [decOk, dRspLen_word, BitVec.toNat_ofNat, Nat.mod_eq_of_lt (by omega)]

theorem blane_decOk {bs : List Byte} {i : Nat} (hi : i < 5) : blane (dRspData (decOk bs)) i = bs.getD i 0x00 := by
  rw [decOk, dRspData_word, blane_byteWord _ hi]

theorem dRspErrIdx_decInvalid {k : Nat} (h : k < 8) : (dRspErrIdx (decInvalid k)).toNat = k := by
  rw [decInvalid, dRspErrIdx_word, BitVec.toNat_ofNat, Nat.mod_eq_of_lt h]

/-- A form answers its bytes or the first invalid lane when its word holds its input symbols and is accepted with that
answer. The number and the lanes of written-out symbols, and the acceptance that the form's own meaning is, are
routine. -/
theorem decAnswers_of_input {i : Instr} {w : DReq} {input : List Sym} {n : Nat} {bytes : List Byte}
    (hw : encode i = .dec w) (hn : bytes.length = n) (hn5 : n ≤ 5)
    (hl : input.length ≤ 8 := by simp)
    (hi : decInput w = input := by
      simp (disch := decide) only [decInput, dReqCnt_word, dReqSym_word, BitVec.reduceToNat, List.range_succ,
        List.range_zero, List.nil_append, List.cons_append, List.map_cons, List.map_nil, lane8, Nat.reduceMul,
        Nat.reduceSub, BitVec.extractLsb'_append_eq_of_le, BitVec.extractLsb'_append_eq_of_add_le,
        BitVec.extractLsb'_eq_self])
    (hx : ∀ s, exec i s = acceptDec w (decAnswer input bytes) s := by intro; rfl) :
    DecAnswers i input n bytes := by
  subst hi hn
  refine ⟨⟨w, hw, by simp [decInput], fun k c hc => ?_⟩, fun s hs => ⟨decAnswer (decInput w) bytes, ?_,
    fun hv => ?_, fun k hk => ?_⟩⟩
  · obtain ⟨hk, rfl⟩ := List.getElem?_eq_some_iff.mp hc
    simp [decInput]
  · exact (hx s).trans (acceptDec_ready (decReady_iff.mpr hs))
  · rw [decAnswer_of_allValid hv]
    refine ⟨dRspStatus_word .., dRspErrIdx_word .., dRspLen_decOk hn5, rfl, fun k y hy => ?_, fun k hk hk5 => ?_⟩
    · rw [blane_decOk ((List.getElem?_eq_some_iff.mp hy).1.trans_le hn5), List.getD_eq_getElem?_getD, hy]
      rfl
    · rw [blane_decOk hk5, List.getD_eq_default _ _ hk]
  · rw [decAnswer_of_firstInvalidAt hk]
    exact ⟨dRspStatus_word .., dRspErrIdx_decInvalid (hk.lt_length.trans_le hl), dRspLen_word .., dRspData_word ..⟩

/-- Settles O13: DEC1's own meaning validates its one symbol and answers no byte (R100). -/
theorem dec1AnswersItsBytes : Obligations.Dec1AnswersItsBytes :=
  fun _ _ => decAnswers_of_input rfl rfl (by decide)

/-- Settles O14: DEC2's own meaning answers byte 0 of R101. -/
theorem dec2AnswersItsBytes : Obligations.Dec2AnswersItsBytes :=
  fun _ _ _ => decAnswers_of_input rfl rfl (by decide)

/-- Settles O15: DEC3's own meaning answers byte 0 of R102, the third symbol being validated only. -/
theorem dec3AnswersItsBytes : Obligations.Dec3AnswersItsBytes :=
  fun _ _ _ _ => decAnswers_of_input rfl rfl (by decide)

/-- Settles O16: DEC4's own meaning answers bytes 0 and 1 of R103. -/
theorem dec4AnswersItsBytes : Obligations.Dec4AnswersItsBytes :=
  fun _ _ _ _ _ => decAnswers_of_input rfl rfl (by decide)

/-- Settles O17: DEC5's own meaning answers bytes 0 to 2 of R104. -/
theorem dec5AnswersItsBytes : Obligations.Dec5AnswersItsBytes :=
  fun _ _ _ _ _ _ => decAnswers_of_input rfl rfl (by decide)

/-- Settles O18: DEC6's own meaning answers bytes 0 to 2 of R105, the sixth symbol being validated only. -/
theorem dec6AnswersItsBytes : Obligations.Dec6AnswersItsBytes :=
  fun _ _ _ _ _ _ _ => decAnswers_of_input rfl rfl (by decide)

/-- Settles O19: DEC7's own meaning answers bytes 0 to 3 of R106. -/
theorem dec7AnswersItsBytes : Obligations.Dec7AnswersItsBytes :=
  fun _ _ _ _ _ _ _ _ => decAnswers_of_input rfl rfl (by decide)

/-! ### Words put together from their own lanes -/

theorem byteWord_blane (d : BitVec 40) : byteWord (blane d) = d := by
  simp (disch := decide) only [byteWord, blane, BitVec.extractLsb'_append_extractLsb'_eq_extractLsb']
  exact BitVec.extractLsb'_eq_self ..

theorem groupWord_groupOf (d : BitVec 40) : groupWord (groupOf d) = d := by
  simp (disch := decide) only [groupWord, groupOf, BitVec.extractLsb'_append_extractLsb'_eq_extractLsb']
  exact BitVec.extractLsb'_eq_self ..

theorem groupWord_congr {f g : Nat → Group} (h : ∀ k < 8, f k = g k) : groupWord f = groupWord g := by
  simp [groupWord, h]

/-- The five bytes of a full chunk are the eight values packed without a gap (R91, R107). -/
theorem decOk_chunkBytes (v : Nat → Group) : decOk (chunkBytes v) = dRspWord statusOk 0 5 (groupWord v) := by
  have hdata : (byteWord fun i => if i < 5 then blane (groupWord v) i else 0x00) = byteWord (blane (groupWord v)) :=
    byteWord_congr fun i hi => if_pos hi
  rw [byteWord_blane] at hdata
  exact (decOk_take_chunkBytes v le_rfl).trans (congrArg _ hdata)

/-- Settles O20: DEC8's own meaning answers the five bytes of R91, which are the eight values packed whole (R107). -/
theorem dec8AnswersItsBytes : Obligations.Dec8AnswersItsBytes := by
  intro s0 s1 s2 s3 s4 s5 s6 s7
  refine ⟨decAnswers_of_input rfl rfl (by decide), fun s hs hv => ?_⟩
  refine (acceptDec_ready (decReady_iff.mpr hs)).trans ?_
  rw [decAnswer_of_allValid hv]
  exact congrArg (fun r => Host.Outcome.next (pushDQ r s))
    (decOk_chunkBytes fun k => ([s0, s1, s2, s3, s4, s5, s6, s7].map valueOf).getD k 0)

/-- Settles O23: every decoder form is the acceptance of its word with `DecChunk` of it, and an acceptance with room
queues the response. -/
theorem decFormsAnswerDecChunk : Obligations.DecFormsAnswerDecChunk :=
  fun _ _ hi s hs => (exec_eq_acceptDec hi s).trans (acceptDec_ready (decReady_iff.mpr hs))

/-! ### What a response depends on -/

theorem decValue_of_lt {w : DReq} {k : Nat} (h : k < (dReqCnt w).toNat) :
    decValue w k = valueOf (lane8 (dReqSym w) k) := if_pos h

theorem decValue_of_le {w : DReq} {k : Nat} (h : (dReqCnt w).toNat ≤ k) : decValue w k = 0 := if_neg (by omega)

/-- `DecChunk` reads the count of a request and the `INV` entries of its input symbols, nothing else (R89, R92). -/
theorem decChunk_congr {w w' : DReq} (hc : dReqCnt w = dReqCnt w')
    (hinv : ∀ k < (dReqCnt w).toNat, inv (lane8 (dReqSym w) k) = inv (lane8 (dReqSym w') k)) :
    decChunk w = decChunk w' := by
  have hscan : firstInvalid (decInput w) = firstInvalid (decInput w') := by
    refine firstInvalidFrom_congr ?_ 0
    simpa [decInput, ← hc] using hinv
  have hvalue : decValue w = decValue w' := by
    funext k
    rcases Nat.lt_or_ge k (dReqCnt w).toNat with h | h
    · rw [decValue_of_lt h, decValue_of_lt (hc ▸ h), valueOf, valueOf, hinv k h]
    · rw [decValue_of_le h, decValue_of_le (hc ▸ h)]
  simp only [decChunk, hc, hscan, hvalue]

/-- Settles O43: equal lanes below `CNT` have equal `INV` entries, and no other lane is read. -/
theorem decoderIgnoresLanesBeyondCnt : Obligations.DecoderIgnoresLanesBeyondCnt :=
  fun _ _ hc hlanes => decChunk_congr hc fun k hk => congrArg inv (hlanes k hk)

theorem fold_lowerCode (c : Sym) : fold (lowerCode c) = fold c := by
  revert c; decide

/-- Case does not matter to `INV`, from upper to lower (10_state.md R28). -/
theorem inv_lowerCode (c : Sym) : inv (lowerCode c) = inv c := by
  rw [← inv_fold (lowerCode c), fold_lowerCode, inv_fold]

/-- Settles O44: a response reads the `INV` entries of its input symbols alone, and the tables give a letter's two
cases, and the letters read as 1 or 0, one entry. -/
theorem caseAndAliasDoNotMatter : Obligations.CaseAndAliasDoNotMatter :=
  ⟨fun _ _ => decChunk_congr, fun c => ⟨inv_fold c, inv_lowerCode c⟩, by decide, by decide⟩

end Sys2Proof.Machine
end

section
/-! DEC undoes ENC, chunk by chunk (spec 41_decoder.md R116): the symbols of an encoder response, sent back to the
decoder, are valid and pack to the chunk that was encoded. -/

namespace Sys2Proof.Machine

/-- The decoder request made of an encoder response: its `CNT` and its symbols (R116). -/
def requestOf (r : ERsp) : DReq := dReqWord (eRspCnt r) (eRspSym r)

@[simp] theorem dReqCnt_requestOf (r : ERsp) : dReqCnt (requestOf r) = eRspCnt r := dReqCnt_word ..

@[simp] theorem dReqSym_requestOf (r : ERsp) : dReqSym (requestOf r) = eRspSym r := dReqSym_word ..

theorem dReqCnt_encChunk {w : EReq} (h : (eReqLen w).toNat ≤ 5) :
    (dReqCnt (requestOf (encChunk w))).toNat = encCount (eReqLen w).toNat := by
  rw [dReqCnt_requestOf, eRspCnt_encChunk h]

/-- `DEC_COUNT` undoes `ENC_COUNT` (R72, R90). -/
theorem decCount_encCount {len : Nat} (h : len ≤ 5) : decCount (encCount len) = len := by
  interval_cases len <;> rfl

/-- `DecChunk` of a legal request with valid input symbols (R89). -/
theorem decChunk_of_allValid {w : DReq} (h : (dReqCnt w).toNat ≤ 8) (hv : AllValid (decInput w)) :
    decChunk w = dRspWord statusOk 0 (BitVec.ofNat 3 (decCount (dReqCnt w).toNat))
      (byteWord fun i => if i < decCount (dReqCnt w).toNat then blane (groupWord (decValue w)) i else 0x00) := by
  rw [decChunk, if_neg (by omega), firstInvalid_eq_none.mpr hv]

/-- The symbols of an encoder response are valid: each is in the alphabet. -/
theorem allValid_encChunk {w : EReq} (h : (eReqLen w).toNat ≤ 5) : AllValid (decInput (requestOf (encChunk w))) := by
  intro c hc
  obtain ⟨k, hk, rfl⟩ := List.mem_map.mp hc
  rw [List.mem_range, dReqCnt_encChunk h] at hk
  rw [dReqSym_requestOf, lane8_encChunk h hk, inv_alpha]

/-- Every lane of an encoder response has the value of its group: the group's symbol stands there, or the lane is beyond
the count and the group is padding. -/
theorem decValue_encChunk {w : EReq} (h : (eReqLen w).toNat ≤ 5) {k : Nat} (hk : k < 8) :
    decValue (requestOf (encChunk w)) k = groupOf (byteWord (encByte w)) k := by
  have hcnt := dReqCnt_encChunk h
  rcases Nat.lt_or_ge k (encCount (eReqLen w).toNat) with hlt | hge
  · rw [decValue_of_lt (hcnt ▸ hlt), dReqSym_requestOf, lane8_encChunk h hlt, valueOf_alpha]
  · obtain ⟨-, hreach⟩ := encCount_spec h
    rw [decValue_of_le (hcnt ▸ hge), groupOf_eq_zero w hk (by omega)]

/-- The values of an encoder response pack to the chunk that was encoded. -/
theorem groupWord_encChunk {w : EReq} (h : (eReqLen w).toNat ≤ 5) :
    groupWord (decValue (requestOf (encChunk w))) = byteWord (encByte w) :=
  (groupWord_congr fun _ hk => decValue_encChunk h hk).trans (groupWord_groupOf _)

/-- Settles O47: the symbols of a response are valid, their values pack to the chunk that was encoded, and `DEC_COUNT`
of its count is the length. -/
theorem decoderUndoesEncoder : Obligations.DecoderUndoesEncoder := by
  intro w hlen
  have hcnt := dReqCnt_encChunk hlen
  change decChunk (requestOf (encChunk w)) = _
  rw [decChunk_of_allValid (hcnt.trans_le (encCount_le hlen)) (allValid_encChunk hlen), hcnt, decCount_encCount hlen,
    groupWord_encChunk hlen, BitVec.ofNat_toNat, BitVec.setWidth_eq]
  refine congrArg _ (byteWord_congr fun i hi => ?_)
  by_cases h : i < (eReqLen w).toNat
  · rw [if_pos h, if_pos h, blane_byteWord _ hi, encByte_of_lt h]
  · rw [if_neg h, if_neg h]

end Sys2Proof.Machine
end

section
/-! The chunks of a message (spec 42_message.md R117, R119): full chunks in order, then the short one if any is left. -/

namespace Sys2Proof.Machine

variable {α : Type} {n : Nat}

/-- A list shorter than a chunk is one short chunk, or none when it is empty. -/
theorem chunks_short {l : List α} (h : l.length < n) : chunks n l = if l = [] then [] else [l] := by
  simp [chunks, Nat.div_eq_of_lt h, Nat.mod_eq_of_lt h, List.length_pos_iff]

/-- A full chunk at the head of a list is its first chunk. -/
theorem chunks_append {c : List α} (hn : 0 < n) (hc : c.length = n) (rest : List α) :
    chunks n (c ++ rest) = c :: chunks n rest := by
  subst hc
  simp [chunks, Nat.add_div_left _ hn, List.range_succ_eq_map, Nat.mul_add, Nat.add_comm _ c.length]

/-- A list is shorter than a chunk, or a full chunk and the rest. -/
theorem chunk_induction {P : List α → Prop} (hn : 0 < n) (short : ∀ l, l.length < n → P l)
    (full : ∀ c rest, c.length = n → P rest → P (c ++ rest)) (l : List α) : P l := by
  induction hl : l.length using Nat.strong_induction_on generalizing l with
  | h k ih =>
    rcases Nat.lt_or_ge l.length n with hs | hge
    · exact short l hs
    · have hdrop : (l.drop n).length < k := by rw [List.length_drop]; omega
      have hP := full (l.take n) (l.drop n) (by simpa using hge) (ih _ hdrop _ rfl)
      rwa [List.take_append_drop] at hP

/-- The chunks put together are the list. -/
theorem flatten_chunks (hn : 0 < n) (l : List α) : (chunks n l).flatten = l := by
  induction l using chunk_induction hn with
  | short l h => rw [chunks_short h]; split <;> simp [*]
  | full c rest hc ih => rw [chunks_append hn hc, List.flatten_cons, ih]

theorem length_le_of_mem_chunks (hn : 0 < n) {l c : List α} (h : c ∈ chunks n l) : c.length ≤ n := by
  induction l using chunk_induction hn with
  | short l hs =>
    rw [chunks_short hs] at h
    split at h
    · cases h
    · exact List.mem_singleton.mp h ▸ hs.le
  | full c' rest hc ih =>
    rw [chunks_append hn hc] at h
    rcases List.mem_cons.mp h with rfl | h
    · exact hc.le
    · exact ih h

end Sys2Proof.Machine
end

section
/-! Bit strings (spec 00_scope.md R6): the bits of words written one after the other, the most significant first, and a
bit string cut into words. -/

namespace Sys2Proof.Machine

variable {w m n : Nat}

/-! ### The bits of one word -/

@[simp] theorem length_bitsOf (v : BitVec n) : (bitsOf v).length = n := by simp [bitsOf]

theorem bitsOf_append (x : BitVec m) (y : BitVec n) : bitsOf (x ++ y) = bitsOf x ++ bitsOf y := by
  refine List.ext_getElem (by simp) fun i hi _ => ?_
  rw [length_bitsOf] at hi
  rcases Nat.lt_or_ge i m with h | h <;>
    simp [bitsOf, BitVec.getMsbD_append, h, Nat.not_le.mpr]

theorem bitsOf_injective {x y : BitVec n} (h : bitsOf x = bitsOf y) : x = y := by
  refine BitVec.eq_of_getMsbD_eq fun i hi => ?_
  have := congrArg (·[i]?) h
  simpa [bitsOf, hi] using this

theorem ofBits_concat (l : List Bool) (b : Bool) : ofBits (l ++ [b]) = Nat.bit b (ofBits l) := by
  cases b <;> simp [ofBits, Nat.bit]

/-- Bit `i` of the number is bit `i` of the string from its end. -/
theorem testBit_ofBits (l : List Bool) (i : Nat) : (ofBits l).testBit i = l.reverse[i]?.getD false := by
  induction l using List.reverseRecOn generalizing i with
  | nil => simp [ofBits]
  | append_singleton l b ih =>
    rw [ofBits_concat]
    cases i with
    | zero => simp
    | succ i => simp [Nat.testBit_bit_succ, ih]

/-- The word of a bit string of its width has these bits. -/
theorem bitsOf_ofBits {l : List Bool} (h : l.length = n) : bitsOf (BitVec.ofNat n (ofBits l)) = l := by
  subst h
  refine List.ext_getElem (by simp) fun i hi _ => ?_
  rw [length_bitsOf] at hi
  have hj : l.length - 1 - i < l.length := by omega
  have hi' : l.length - 1 - (l.length - 1 - i) = i := by omega
  simp only [bitsOf, List.getElem_map, List.getElem_range, BitVec.getMsbD, BitVec.getLsbD_ofNat, testBit_ofBits,
    List.getElem?_reverse hj, hi', hi, hj, decide_true, Bool.true_and, List.getElem?_eq_getElem, Option.getD_some]

/-! ### The bits of words in a row -/

/-- The bits of the words, one word after the other. -/
def bitString (vs : List (BitVec w)) : List Bool := vs.flatMap bitsOf

@[simp] theorem bitString_nil : bitString ([] : List (BitVec w)) = [] := rfl

@[simp] theorem bitString_cons (v : BitVec w) (vs : List (BitVec w)) :
    bitString (v :: vs) = bitsOf v ++ bitString vs := List.flatMap_cons

@[simp] theorem bitString_append (vs vs' : List (BitVec w)) :
    bitString (vs ++ vs') = bitString vs ++ bitString vs' := List.flatMap_append

@[simp] theorem length_bitString (vs : List (BitVec w)) : (bitString vs).length = w * vs.length := by
  simp [bitString, List.length_flatMap, Nat.mul_comm]

theorem bitString_take (vs : List (BitVec w)) (k : Nat) : bitString (vs.take k) = (bitString vs).take (w * k) := by
  induction vs generalizing k with
  | nil => simp
  | cons v vs ih =>
    cases k with
    | zero => simp
    | succ k => simp [ih, List.take_append, Nat.mul_succ, List.take_of_length_le]

theorem bitString_replicate_zero (k : Nat) :
    bitString (List.replicate k (0 : BitVec w)) = List.replicate (w * k) false := by
  refine List.eq_replicate_iff.mpr ⟨by simp, fun b hb => ?_⟩
  simp only [bitString, bitsOf, List.mem_flatMap, List.mem_map, List.mem_replicate] at hb
  obtain ⟨_, ⟨-, rfl⟩, _, -, rfl⟩ := hb
  simp

/-- Words of some width are determined by their bits. -/
theorem bitString_injective (hw : 0 < w) {vs vs' : List (BitVec w)} (h : bitString vs = bitString vs') : vs = vs' := by
  induction vs generalizing vs' with
  | nil =>
    have := congrArg List.length h
    simp only [bitString_nil, List.length_nil, length_bitString] at this
    have : vs'.length = 0 := by
      rcases Nat.mul_eq_zero.mp this.symm with h0 | h0 <;> omega
    exact (List.length_eq_zero_iff.mp this).symm
  | cons v vs ih =>
    cases vs' with
    | nil =>
      have := congrArg List.length h
      simp at this; omega
    | cons v' vs' =>
      rw [bitString_cons, bitString_cons] at h
      obtain ⟨hv, hvs⟩ := List.append_inj h (by simp)
      rw [bitsOf_injective hv, ih hvs]

/-! ### A bit string cut into words -/

/-- The first `count` words of width `w` of a bit string. -/
def cut (w count : Nat) (l : List Bool) : List (BitVec w) :=
  (List.range count).map fun k => BitVec.ofNat w (ofBits ((l.drop (w * k)).take w))

theorem bitString_cut {count : Nat} {l : List Bool} (h : w * count ≤ l.length) :
    bitString (cut w count l) = l.take (w * count) := by
  induction count with
  | zero => rfl
  | succ k ih =>
    rw [Nat.mul_succ] at h ⊢
    have hlast : bitsOf (BitVec.ofNat w (ofBits ((l.drop (w * k)).take w))) = (l.drop (w * k)).take w :=
      bitsOf_ofBits (by rw [List.length_take, List.length_drop]; omega)
    have hcut : cut w (k + 1) l = cut w k l ++ [BitVec.ofNat w (ofBits ((l.drop (w * k)).take w))] := by
      simp [cut, List.range_succ]
    rw [hcut, bitString_append, ih (by omega), bitString_cons, bitString_nil, List.append_nil, hlast, List.take_add]

/-! ### The two 40-bit words of a chunk -/

theorem bitsOf_byteWord (f : Nat → Byte) : bitsOf (byteWord f) = bitString ((List.range 5).map f) := by
  have h : bitsOf (byteWord f) = bitsOf (n := 8 + 8 + 8 + 8 + 8) (f 0 ++ f 1 ++ f 2 ++ f 3 ++ f 4) := rfl
  rw [h]
  iterate 4 rw [bitsOf_append]
  simp [List.range_succ]

theorem bitsOf_groupWord (v : Nat → Group) : bitsOf (groupWord v) = bitString ((List.range 8).map v) := by
  have h : bitsOf (groupWord v) = bitsOf (n := 5 + 5 + 5 + 5 + 5 + 5 + 5 + 5)
      (v 0 ++ v 1 ++ v 2 ++ v 3 ++ v 4 ++ v 5 ++ v 6 ++ v 7) := rfl
  rw [h]
  iterate 7 rw [bitsOf_append]
  simp [List.range_succ]

/-- The eight groups of a 40-bit word are its bits regrouped. -/
theorem bitString_groups (d : BitVec 40) : bitString ((List.range 8).map (groupOf d)) = bitsOf d := by
  rw [← bitsOf_groupWord, groupWord_groupOf]

/-- The five bytes of a 40-bit word are its bits regrouped. -/
theorem bitString_bytes (d : BitVec 40) : bitString ((List.range 5).map (blane d)) = bitsOf d := by
  rw [← bitsOf_byteWord, byteWord_blane]

end Sys2Proof.Machine
end

section
/-! The message functions (spec 42_message.md R117-R120, R126-R128). The symbols of `encode(b)` carry the bits of `b`
padded with zero bits, the bytes of `decode(s)` carry the values' bits of `s` cut off after the last whole byte, and
what the functions say of each other follows from the two bit strings. -/

namespace Sys2Proof.Machine

theorem chunkBytes_pos : 0 < Config.chunkBytes := by decide

theorem chunkSyms_pos : 0 < Config.chunkSyms := by decide

/-! ### The requests of a chunk -/

/-- The lanes of a chunk shorter than the word: its elements, then the filling. -/
theorem map_getD_range {α : Type} {n : Nat} {c : List α} (h : c.length ≤ n) (d : α) :
    (List.range n).map (c.getD · d) = c ++ List.replicate (n - c.length) d := by
  refine List.ext_getElem (by simp; omega) fun i hi _ => ?_
  rcases Nat.lt_or_ge i c.length with hc | hc <;> simp [hc]

theorem eReqLen_eReqOf {c : List Byte} (h : c.length ≤ 5) : (eReqLen (eReqOf c)).toNat = c.length := by
  rw [eReqOf, eReqLen_word, BitVec.toNat_ofNat, Nat.mod_eq_of_lt (by omega)]

theorem encByte_eReqOf {c : List Byte} (h : c.length ≤ 5) : encByte (eReqOf c) = fun i => c.getD i 0 := by
  funext i
  rcases Nat.lt_or_ge i c.length with hi | hi
  · rw [encByte_of_lt (by rwa [eReqLen_eReqOf h]), eReqOf, eReqData_word, blane_byteWord _ (by omega)]
  · rw [encByte_of_le (by rwa [eReqLen_eReqOf h]), List.getD_eq_default _ _ hi]

theorem dReqCnt_dReqOf {c : List Sym} (h : c.length ≤ 8) : (dReqCnt (dReqOf c)).toNat = c.length := by
  rw [dReqOf, dReqCnt_word, BitVec.toNat_ofNat, Nat.mod_eq_of_lt (by omega)]

theorem lane8_dReqOf {c : List Sym} {k : Nat} (hk : k < 8) : lane8 (dReqSym (dReqOf c)) k = c.getD k 0 := by
  rw [dReqOf, dReqSym_word, lane8_symWord _ hk]

theorem decInput_dReqOf {c : List Sym} (h : c.length ≤ 8) : decInput (dReqOf c) = c := by
  rw [decInput, dReqCnt_dReqOf h]
  refine List.ext_getElem (by simp) fun k hk hc => ?_
  simp [lane8_dReqOf (c := c) (k := k) (by omega), hc]

theorem decValue_dReqOf {c : List Sym} (h : c.length ≤ 8) :
    decValue (dReqOf c) = fun k => (c.map valueOf).getD k 0 := by
  funext k
  rcases Nat.lt_or_ge k c.length with hk | hk
  · rw [decValue_of_lt (by rwa [dReqCnt_dReqOf h]), lane8_dReqOf (by omega)]
    simp [hk]
  · rw [decValue_of_le (by rwa [dReqCnt_dReqOf h]), List.getD_eq_default _ _ (by simpa using hk)]

/-! ### The bits of a chunk's response -/

/-- The symbols of a response are those of the first groups of the chunk (40_encoder.md R71). -/
theorem symsOf_encChunk {w : EReq} (h : (eReqLen w).toNat ≤ 5) : symsOf (encChunk w) =
    (((List.range 8).map (groupOf (byteWord (encByte w)))).take (encCount (eReqLen w).toNat)).map alpha := by
  have hn := encCount_le h
  rw [symsOf, eRspCnt_encChunk h, ← List.map_take, List.take_range, Nat.min_eq_left hn, List.map_map]
  exact List.map_congr_left fun k hk => lane8_encChunk h (List.mem_range.mp hk)

/-- The five bytes of a request's chunk, before any is cut off (41_decoder.md R89). -/
def wholeBytes (w : DReq) : List Byte := (List.range 5).map (blane (groupWord (decValue w)))

@[simp] theorem length_wholeBytes (w : DReq) : (wholeBytes w).length = 5 := by simp [wholeBytes]

/-- The bytes of an `OK` response are the first of the chunk's five (41_decoder.md R89, R90). -/
theorem bytesOf_decChunk {w : DReq} (h : (dReqCnt w).toNat ≤ 8) (hv : AllValid (decInput w)) :
    bytesOf (decChunk w) = (wholeBytes w).take (decCount (dReqCnt w).toNat) := by
  have hm : decCount (dReqCnt w).toNat ≤ 5 := by unfold decCount; omega
  rw [decChunk_of_allValid h hv, bytesOf, dRspLen_word, dRspData_word, BitVec.toNat_ofNat,
    Nat.mod_eq_of_lt (by omega), wholeBytes, ← List.map_take, List.take_range, Nat.min_eq_left hm]
  refine List.map_congr_left fun i hi => ?_
  have hi := List.mem_range.mp hi
  rw [blane_byteWord _ (by omega), if_pos hi]

/-- The bits of the values of a symbol sequence: `Q` of R119. -/
def valueBits (s : List Sym) : List Bool := bitString (s.map valueOf)

theorem valueBits_eq_flatMap (s : List Sym) : (s.flatMap fun c => bitsOf (valueOf c)) = valueBits s :=
  (List.flatMap_map ..).symm

@[simp] theorem valueBits_append (s t : List Sym) : valueBits (s ++ t) = valueBits s ++ valueBits t := by
  simp [valueBits]

@[simp] theorem length_valueBits (s : List Sym) : (valueBits s).length = 5 * s.length := by simp [valueBits]

@[simp] theorem valueBits_map_alpha (gs : List Group) : valueBits (gs.map alpha) = bitString gs := by
  simp [valueBits, Function.comp_def]

/-- The symbols of a chunk's response carry the chunk's bits and zero bits after them, up to the last symbol. -/
theorem valueBits_chunk {c : List Byte} (h : c.length ≤ 5) : valueBits (symsOf (encChunk (eReqOf c))) =
    bitString c ++ List.replicate (5 * encCount c.length - 8 * c.length) false := by
  have hlen := eReqLen_eReqOf h
  obtain ⟨-, hreach⟩ := encCount_spec h
  have hcount := encCount_le h
  rw [symsOf_encChunk (hlen.trans_le h), valueBits_map_alpha, bitString_take, bitString_groups, bitsOf_byteWord, hlen,
    encByte_eReqOf h, map_getD_range h, bitString_append, bitString_replicate_zero, List.take_append,
    List.take_of_length_le (by simpa using hreach), List.take_replicate, length_bitString]
  congr 2
  omega

/-- The five bytes of a chunk carry the bits of its symbols' values and zero bits after them. -/
theorem bitString_wholeBytes {c : List Sym} (h : c.length ≤ 8) : bitString (wholeBytes (dReqOf c)) =
    valueBits c ++ List.replicate (5 * (8 - c.length)) false := by
  rw [wholeBytes, bitString_bytes, bitsOf_groupWord, decValue_dReqOf h, map_getD_range (by simpa using h),
    bitString_append, bitString_replicate_zero, List.length_map, valueBits]

/-! ### The symbols of `encode(b)` -/

theorem encodeMessage_short {b : List Byte} (h : b.length < 5) : encodeMessage b = symsOf (encChunk (eReqOf b)) := by
  rw [encodeMessage, encodeRequests, chunks_short (n := Config.chunkBytes) h]
  split
  · subst b; decide
  · simp

theorem encodeMessage_append {c : List Byte} (hc : c.length = 5) (rest : List Byte) :
    encodeMessage (c ++ rest) = symsOf (encChunk (eReqOf c)) ++ encodeMessage rest := by
  simp [encodeMessage, encodeRequests, chunks_append chunkBytes_pos hc]

/-- The bits of a message and zero bits up to a multiple of five: `P` of R117. -/
def paddedBits (b : List Byte) : List Bool :=
  bitString b ++ List.replicate (5 * ((8 * b.length + 4) / 5) - 8 * b.length) false

@[simp] theorem length_paddedBits (b : List Byte) : (paddedBits b).length = 5 * ((8 * b.length + 4) / 5) := by
  simp [paddedBits]; omega

/-- The symbols of `encode(b)` carry the padded bits of `b`. -/
theorem valueBits_encodeMessage (b : List Byte) : valueBits (encodeMessage b) = paddedBits b := by
  induction b using chunk_induction (n := 5) (by decide) with
  | short c h => rw [encodeMessage_short h, valueBits_chunk h.le]; rfl
  | full c rest hc ih =>
    have hpad : 5 * ((8 * (5 + rest.length) + 4) / 5) - 8 * (5 + rest.length) =
        5 * ((8 * rest.length + 4) / 5) - 8 * rest.length := by omega
    simp [encodeMessage_append hc, valueBits_chunk hc.le, ih, paddedBits, hc, encCount, hpad]

/-- Settles O48: five bits a symbol make up the padded bits of the message. -/
theorem encodeLengthLaw : Obligations.EncodeLengthLaw := by
  intro b
  have h := congrArg List.length (valueBits_encodeMessage b)
  rw [length_valueBits, length_paddedBits] at h
  omega

/-- The symbols of `encode(b)` are in the alphabet. -/
theorem encodeMessage_subset_alphabet (b : List Byte) : encodeMessage b ⊆ alphabet := by
  intro s hs
  obtain ⟨w, hw, hs⟩ := List.mem_flatMap.mp hs
  obtain ⟨c, hc, rfl⟩ := List.mem_map.mp hw
  have hlen := length_le_of_mem_chunks chunkBytes_pos hc
  rw [symsOf_encChunk ((eReqLen_eReqOf hlen).trans_le hlen)] at hs
  obtain ⟨g, -, rfl⟩ := List.mem_map.mp hs
  exact alpha_mem_alphabet g

theorem alpha_valueOf : ∀ c ∈ alphabet, alpha (valueOf c) = c := by decide

theorem map_alpha_map_valueOf {s : List Sym} (h : s ⊆ alphabet) : (s.map valueOf).map alpha = s := by
  rw [List.map_map]
  exact (List.map_congr_left fun c hc => alpha_valueOf c (h hc)).trans (List.map_id' s)

theorem allValid_of_subset_alphabet {s : List Sym} (h : s ⊆ alphabet) : AllValid s :=
  fun c hc => (by decide : ∀ c ∈ alphabet, (inv c).valid = true) c (h hc)

/-- Symbols of the alphabet are determined by the bits of their values. -/
theorem eq_of_valueBits {s t : List Sym} (hs : s ⊆ alphabet) (ht : t ⊆ alphabet) (h : valueBits s = valueBits t) :
    s = t := by
  rw [← map_alpha_map_valueOf hs, ← map_alpha_map_valueOf ht, bitString_injective (by decide) h]

theorem encodeBits_eq_cut (b : List Byte) :
    encodeBits b = (cut 5 ((8 * b.length + 4) / 5) (paddedBits b)).map alpha := by
  simp [encodeBits, cut, paddedBits, bitString]

/-- Settles O50: both forms are symbols of the alphabet that carry the padded bits of the message. -/
theorem encodeIsBitRegrouping : Obligations.EncodeIsBitRegrouping := by
  intro b
  rw [encodeBits_eq_cut]
  refine eq_of_valueBits (encodeMessage_subset_alphabet b) ?_ ?_
  · intro s hs
    obtain ⟨g, -, rfl⟩ := List.mem_map.mp hs
    exact alpha_mem_alphabet g
  · rw [valueBits_map_alpha, bitString_cut (length_paddedBits b).ge, valueBits_encodeMessage,
      List.take_of_length_le (length_paddedBits b).le]

/-! ### The bytes of `decode(s)` -/

/-- What DEC answers to the requests of a message, put together (R119). -/
def messageBytes (s : List Sym) : List Byte := (decodeRequests s).flatMap fun w => bytesOf (decChunk w)

/-- The five bytes of every chunk of a message, put together (R120). -/
def messageWholeBytes (s : List Sym) : List Byte := (decodeRequests s).flatMap wholeBytes

theorem decodeRequests_append {c : List Sym} (hc : c.length = 8) (rest : List Sym) :
    decodeRequests (c ++ rest) = dReqOf c :: decodeRequests rest := by
  simp [decodeRequests, chunks_append chunkSyms_pos hc]

theorem decodeRequests_short {s : List Sym} (h : s.length < 8) :
    decodeRequests s = if s = [] then [] else [dReqOf s] := by
  rw [decodeRequests, chunks_short (n := Config.chunkSyms) h]
  split <;> rfl

theorem allValid_append {s t : List Sym} : AllValid (s ++ t) ↔ AllValid s ∧ AllValid t := List.forall_mem_append

/-- The bytes of a chunk with valid symbols are the first of its five. -/
theorem bytesOf_dReqOf {c : List Sym} (h : c.length ≤ 8) (hv : AllValid c) :
    bytesOf (decChunk (dReqOf c)) = (wholeBytes (dReqOf c)).take (decCount c.length) := by
  rw [bytesOf_decChunk ((dReqCnt_dReqOf h).trans_le h) (by rwa [decInput_dReqOf h]), dReqCnt_dReqOf h]

/-- Cutting off the bytes past the last whole one in each chunk or in the whole message is the same (R120). -/
theorem messageBytes_eq_take {s : List Sym} (hv : AllValid s) :
    messageBytes s = (messageWholeBytes s).take (5 * s.length / 8) := by
  induction s using chunk_induction (n := 8) (by decide) with
  | short s h =>
    unfold messageBytes messageWholeBytes
    rw [decodeRequests_short h]
    split
    · simp
    · simp [bytesOf_dReqOf h.le hv, decCount]
  | full c rest hc ih =>
    obtain ⟨hvc, hvr⟩ := allValid_append.mp hv
    have ih := ih hvr
    unfold messageBytes messageWholeBytes at ih ⊢
    have hlen : 5 * (8 + rest.length) / 8 = 5 + 5 * rest.length / 8 := by omega
    simp [decodeRequests_append hc, bytesOf_dReqOf hc.le hvc, ih, hc, hlen, decCount, List.take_append]

/-- The whole chunks' bytes begin with the bits of the values. -/
theorem valueBits_prefix (s : List Sym) : valueBits s <+: bitString (messageWholeBytes s) := by
  induction s using chunk_induction (n := 8) (by decide) with
  | short s h =>
    unfold messageWholeBytes
    rw [decodeRequests_short h]
    split
    · subst s; exact List.prefix_rfl
    · simp [bitString_wholeBytes h.le]
  | full c rest hc ih =>
    unfold messageWholeBytes at ih ⊢
    simpa [decodeRequests_append hc, bitString_wholeBytes hc.le, hc] using ih

theorem wholeBytes_fit (s : List Sym) : 8 * (5 * s.length / 8) ≤ (valueBits s).length := by
  simp; omega

/-- The bytes of a message with valid symbols carry the bits of the values up to the last whole byte. -/
theorem bitString_messageBytes {s : List Sym} (hv : AllValid s) :
    bitString (messageBytes s) = (valueBits s).take (8 * (5 * s.length / 8)) := by
  obtain ⟨t, ht⟩ := valueBits_prefix s
  rw [messageBytes_eq_take hv, bitString_take, ← ht, List.take_append_of_le_length (wholeBytes_fit s)]

theorem length_messageBytes {s : List Sym} (hv : AllValid s) : (messageBytes s).length = 5 * s.length / 8 := by
  have h := congrArg List.length (bitString_messageBytes hv)
  rw [length_bitString, List.length_take, length_valueBits] at h
  omega

theorem decodeMessage_of_allValid {s : List Sym} (hv : AllValid s) : decodeMessage s = some (messageBytes s) := by
  rw [decodeMessage, firstInvalid_eq_none.mpr hv]
  rfl

theorem decodeMessage_eq_none {s : List Sym} : decodeMessage s = none ↔ ¬ AllValid s := by
  rw [← firstInvalid_eq_none, decodeMessage]
  cases firstInvalid s <;> simp

/-- `decode(s)` answers bytes when every symbol is valid, and then those of the chunks. -/
theorem decodeMessage_eq_some {s : List Sym} {out : List Byte} :
    decodeMessage s = some out ↔ AllValid s ∧ messageBytes s = out := by
  by_cases hv : AllValid s
  · simp [decodeMessage_of_allValid hv, hv]
  · simp [decodeMessage_eq_none.mpr hv, hv]

/-- Settles O49: the bytes carry the values' bits up to the last whole byte, and cutting off is done chunk by chunk or
once. -/
theorem decodeLengthAndTruncation : Obligations.DecodeLengthAndTruncation := by
  intro s out h
  obtain ⟨hv, rfl⟩ := decodeMessage_eq_some.mp h
  exact ⟨length_messageBytes hv, messageBytes_eq_take hv⟩

theorem decodeBits_eq_cut (s : List Sym) : decodeBits s =
    if s.all fun c => (inv c).valid then some (cut 8 (5 * s.length / 8) (valueBits s)) else none := by
  rw [decodeBits, valueBits_eq_flatMap]
  rfl

/-- Settles O51: with valid symbols both forms are bytes that carry the values' bits up to the last whole byte. -/
theorem decodeIsBitRegrouping : Obligations.DecodeIsBitRegrouping := by
  intro s
  by_cases hv : AllValid s
  · rw [decodeMessage_of_allValid hv, decodeBits_eq_cut, if_pos (List.all_eq_true.mpr hv)]
    refine congrArg some (bitString_injective (by decide) ?_)
    rw [bitString_messageBytes hv, bitString_cut (wholeBytes_fit s)]
  · rw [decodeMessage_eq_none.mpr hv, decodeBits_eq_cut, if_neg (mt List.all_eq_true.mp hv)]

/-! ### Which sequences decode, and alike -/

/-- The codes that `INV` marks invalid are those of R26. -/
theorem invalidCode_iff (c : Sym) : InvalidCode c ↔ (inv c).valid = false := by
  revert c; unfold InvalidCode; decide

/-- Settles O54: `decode` answers none when some symbol is not valid, and the codes that are not are those of R26. -/
theorem decodeRejectsExactlyInvalidCodes : Obligations.DecodeRejectsExactlyInvalidCodes := by
  intro s
  simp [decodeMessage_eq_none, AllValid, invalidCode_iff]

/-- `decode` reads the `INV` entries of the symbols, nothing else: so does its bit-string form. -/
theorem decodeMessage_congr {s t : List Sym} (h : s.map inv = t.map inv) : decodeMessage s = decodeMessage t := by
  have hlen : s.length = t.length := by simpa using congrArg List.length h
  have hvalid : (s.all fun c => (inv c).valid) = t.all fun c => (inv c).valid := by
    simpa [List.all_map, Function.comp_def] using congrArg (List.all · InvEntry.valid) h
  have hvalue : s.map valueOf = t.map valueOf := by
    have hmap := congrArg (List.map InvEntry.value) h
    rw [List.map_map, List.map_map] at hmap
    exact hmap
  rw [decodeIsBitRegrouping, decodeIsBitRegrouping, decodeBits_eq_cut, decodeBits_eq_cut, hlen, hvalid, valueBits,
    valueBits, hvalue]

/-- Settles O53: `decode` reads `INV` entries alone, and the two cases of a letter have one entry. -/
theorem decodeIsCaseAndAliasTolerant : Obligations.DecodeIsCaseAndAliasTolerant := by
  refine ⟨fun s => ⟨?_, ?_⟩, fun s t => decodeMessage_congr, by decide, by decide⟩
  · exact decodeMessage_congr (by simp [inv_fold])
  · exact decodeMessage_congr (by simp [inv_lowerCode])

/-! ### Round trip and canonical text -/

/-- Settles O52: the symbols of `encode(b)` are valid, and their bits up to the last whole byte are those of `b`. -/
theorem messageRoundTrip : Obligations.MessageRoundTrip := by
  intro b
  have hv := allValid_of_subset_alphabet (encodeMessage_subset_alphabet b)
  refine decodeMessage_eq_some.mpr ⟨hv, bitString_injective (by decide) ?_⟩
  have hlen : 5 * ((8 * b.length + 4) / 5) / 8 = b.length := by omega
  rw [bitString_messageBytes hv, valueBits_encodeMessage, encodeLengthLaw, hlen, paddedBits,
    List.take_left' (length_bitString b)]

/-- What R128 asks of the encoder's strings, taken apart. -/
theorem canonicalText_iff {s : List Sym} : canonicalText s = true ↔
    s ⊆ alphabet ∧ (s.length % 8 ≠ 1 ∧ s.length % 8 ≠ 3 ∧ s.length % 8 ≠ 6) ∧
      ∀ x ∈ (valueBits s).drop (8 * (5 * s.length / 8)), x = false := by
  simp [canonicalText, valueBits_eq_flatMap, List.subset_def, and_assoc]

theorem canonicalText_encodeMessage (b : List Byte) : canonicalText (encodeMessage b) = true := by
  have hlen : (encodeMessage b).length = (8 * b.length + 4) / 5 := encodeLengthLaw b
  have hbytes : 5 * ((8 * b.length + 4) / 5) / 8 = b.length := by omega
  refine canonicalText_iff.mpr ⟨encodeMessage_subset_alphabet b, by omega, fun x hx => ?_⟩
  rw [hlen, hbytes, valueBits_encodeMessage, paddedBits, List.drop_left' (length_bitString b)] at hx
  exact List.eq_of_mem_replicate hx

/-- A canonical text is the encoding of the bytes it decodes to: the bits cut off in decoding are the padding. -/
theorem encodeMessage_messageBytes {s : List Sym} (h : canonicalText s = true) :
    encodeMessage (messageBytes s) = s := by
  obtain ⟨halpha, hlen, hzero⟩ := canonicalText_iff.mp h
  have hv := allValid_of_subset_alphabet halpha
  refine eq_of_valueBits (encodeMessage_subset_alphabet _) halpha ?_
  have hpad : (valueBits s).drop (8 * (5 * s.length / 8)) =
      List.replicate (5 * s.length - 8 * (5 * s.length / 8)) false :=
    List.eq_replicate_iff.mpr ⟨by simp, hzero⟩
  have hcount : (8 * (5 * s.length / 8) + 4) / 5 = s.length := by
    have hrest : s.length % 8 = 0 ∨ s.length % 8 = 2 ∨ s.length % 8 = 4 ∨ s.length % 8 = 5 ∨ s.length % 8 = 7 := by
      omega
    omega
  rw [valueBits_encodeMessage, paddedBits, length_messageBytes hv, hcount, bitString_messageBytes hv, ← hpad,
    List.take_append_drop]

/-- Settles O55: an encoding is canonical, a canonical text is the encoding of what it decodes to, and what is not
canonical is no encoding. -/
theorem encoderImageIsCanonicalText : Obligations.EncoderImageIsCanonicalText := by
  refine ⟨fun s => ⟨?_, fun h => ⟨_, encodeMessage_messageBytes h⟩⟩,
    fun s hv hs => ⟨_, decodeMessage_of_allValid hv, fun he => ?_⟩⟩
  · rintro ⟨b, rfl⟩
    exact canonicalText_encodeMessage b
  · have hcanon := canonicalText_encodeMessage (messageBytes s)
    rw [he, hs] at hcanon
    cases hcanon

end Sys2Proof.Machine
end

section
/-! Whole messages on the block (spec 42_message.md R121-R125): the result and the error position that a host reads off
the responses, and the responses it takes in a run without a reset, whatever the order of the transfers. -/

namespace Sys2Proof.Machine

/-! ### The responses to the requests of `DECODE` -/

/-- `DecChunk` of a chunk's request answers `OK` exactly when its symbols are valid. -/
theorem dRspStatus_dReqOf {c : List Sym} (h : c.length ≤ 8) :
    dRspStatus (decChunk (dReqOf c)) = statusOk ↔ AllValid c := by
  rw [decChunk_of_input (decInput_dReqOf h) h, decAnswer]
  cases hc : firstInvalid c with
  | none => simpa [decOk] using firstInvalid_eq_none.mp hc
  | some k =>
    have hv : ¬ AllValid c := fun hv => by simp [firstInvalid_eq_none.mpr hv] at hc
    simpa [decInvalid, hv] using show statusInvalidSymbol ≠ statusOk by decide

theorem allValid_iff_chunks (m : List Sym) : AllValid m ↔ ∀ c ∈ chunks Config.chunkSyms m, AllValid c := by
  conv => lhs; rw [← flatten_chunks chunkSyms_pos m]
  simp only [AllValid, List.mem_flatten, forall_exists_index, and_imp]
  exact ⟨fun h c hc s hs => h s c hc hs, fun h s c hc hs => h c hc s hs⟩

/-- Every response to `DECODE m` is `OK` exactly when every symbol of `m` is valid. -/
theorem decodeRequests_ok_iff (m : List Sym) :
    (∀ w ∈ decodeRequests m, dRspStatus (decChunk w) = statusOk) ↔ AllValid m := by
  rw [allValid_iff_chunks, decodeRequests, List.forall_mem_map]
  exact forall₂_congr fun c hc => dRspStatus_dReqOf (length_le_of_mem_chunks chunkSyms_pos hc)

/-- The result a host reads off the responses to all requests of `DECODE m` is `decode(m)` (R124). -/
theorem decodeResult_decodeRequests (m : List Sym) :
    decodeResult ((decodeRequests m).map decChunk) = decodeMessage m := by
  have hok : ((decodeRequests m).map decChunk).all (fun r => dRspStatus r = statusOk) = true ↔ AllValid m := by
    simpa using decodeRequests_ok_iff m
  rw [decodeResult]
  by_cases hv : AllValid m
  · rw [if_pos (hok.mpr hv), decodeMessage_of_allValid hv, List.flatMap_map]
    rfl
  · rw [if_neg (mt hok.mp hv), decodeMessage_eq_none.mpr hv]

/-- One response to `DECODE m` that is not `OK` settles the result: none, as `decode(m)` is (R124). -/
theorem decode_none_of_not_ok {m : List Sym} {ws : List DReq} {w : DReq} (hws : ws ⊆ decodeRequests m) (hw : w ∈ ws)
    (h : dRspStatus (decChunk w) ≠ statusOk) : decodeResult (ws.map decChunk) = none ∧ decodeMessage m = none := by
  refine ⟨if_neg fun hall => ?_, decodeMessage_eq_none.mpr fun hv => ?_⟩
  · exact h (by simpa using List.all_eq_true.mp hall _ (List.mem_map_of_mem hw))
  · exact h ((decodeRequests_ok_iff m).mpr hv w (hws hw))

/-! ### The position of the first invalid symbol -/

theorem firstInvalidFrom_eq_map (k : Nat) (l : List Sym) : firstInvalidFrom k l = (firstInvalid l).map (k + ·) := by
  cases h : firstInvalid l with
  | none => rw [firstInvalidFrom_eq_none.mpr (firstInvalid_eq_none.mp h)]; rfl
  | some j => rw [firstInvalidFrom_eq_some.mpr ⟨j, rfl, firstInvalid_eq_some.mp h⟩]; rfl

theorem firstInvalidFrom_append (k : Nat) (l l' : List Sym) :
    firstInvalidFrom k (l ++ l') = (firstInvalidFrom k l).or (firstInvalidFrom (k + l.length) l') := by
  induction l generalizing k with
  | nil => rfl
  | cons s l ih =>
    by_cases hs : (inv s).valid = true <;> simp [firstInvalidFrom, hs, ih, Nat.add_assoc, Nat.add_comm 1]

/-- A chunk's response tells the host the chunk's first invalid symbol, or sends it on to the next response. -/
theorem errorPositionFrom_dReqOf {c : List Sym} (h : c.length ≤ 8) (j : Nat) (rest : List DRsp) :
    errorPositionFrom j (decChunk (dReqOf c) :: rest) =
      (firstInvalidFrom (8 * j) c).or (errorPositionFrom (j + 1) rest) := by
  have hst := dRspStatus_dReqOf h
  rw [← firstInvalid_eq_none] at hst
  rw [firstInvalidFrom_eq_map, errorPositionFrom]
  cases hc : firstInvalid c with
  | none => rw [if_pos (hst.mpr hc)]; rfl
  | some k =>
    have hk : k < 8 := (firstInvalid_eq_some.mp hc).lt_length.trans_le h
    rw [if_neg (by simp [hst, hc]), decChunk_of_input (decInput_dReqOf h) h, decAnswer, hc, dRspErrIdx_decInvalid hk]
    rfl

/-- From chunk `j` on the host finds the first invalid symbol from position `8j` on (R124). -/
theorem errorPositionFrom_decodeRequests (j : Nat) (m : List Sym) :
    errorPositionFrom j ((decodeRequests m).map decChunk) = firstInvalidFrom (8 * j) m := by
  induction m using chunk_induction (n := 8) (by decide) generalizing j with
  | short m h =>
    rw [decodeRequests_short h]
    split
    · subst m; rfl
    · rw [List.map_singleton, errorPositionFrom_dReqOf h.le]
      exact Option.or_none
  | full c rest hc ih =>
    rw [decodeRequests_append hc, List.map_cons, errorPositionFrom_dReqOf hc.le, ih, firstInvalidFrom_append, hc,
      Nat.mul_succ]

/-- Settles O59: the host scans the responses as the decoder scans a chunk, eight positions a response. -/
theorem errorPositionIsFirstInvalid : Obligations.ErrorPositionIsFirstInvalid :=
  errorPositionFrom_decodeRequests 0

/-! ### The answers of a run without a reset -/

theorem alongSteps_map {α β : Type} (g : α → β) (f : Event → State → List α) (k : Nat) (s : State) :
    alongSteps (fun e s => (f e s).map g) k s = (alongSteps f k s).map g := by
  induction k generalizing s with
  | zero => rfl
  | succ k ih =>
    simp only [alongSteps]
    cases s.nextEvent with
    | none => rfl
    | some e => cases step s <;> simp [ih]

/-- What is gathered along a run: that of its first event, then that of the run from the next state. -/
theorem alongSteps_succ {α : Type} (f : Event → State → List α) {k : Nat} {s t : State} {e : Event}
    (he : s.nextEvent = some e) (h : step s = .next t) : alongSteps f (k + 1) s = f e s ++ alongSteps f k t := by
  simp [alongSteps, he, h]

theorem runSteps_quiet {s : State} (h : s.nextEvent = none) (k : Nat) : runSteps k s = .next s := by
  induction k with
  | zero => rfl
  | succ k ih => rw [runSteps_succ (step_quiet h), ih]

/-- A run starts with a step to a next state. -/
theorem runSteps_succ_eq_next {k : Nat} {s t : State} (h : runSteps (k + 1) s = .next t) :
    ∃ s', step s = .next s' ∧ runSteps k s' = .next t := by
  cases hs : step s with
  | next s' => exact ⟨s', rfl, by rwa [runSteps_succ hs] at h⟩
  | fault f => simp [runSteps, hs] at h
  | refused r => simp [runSteps, hs] at h

/-- Along a run without a reset a unit's answers grow by those to the requests that come to its port (R40, R41). -/
theorem runSteps_answers {k : Nat} {s t : State} (h : runSteps k s = .next t) (hr : noResetFor k s = true)
    (u : UnitId) : (port u t).answers = (port u s).answers ++ alongSteps (asked u) k s := by
  induction k generalizing s with
  | zero => cases h; simp [alongSteps]
  | succ k ih =>
    cases he : s.nextEvent with
    | none =>
      rw [runSteps_quiet he] at h; cases h
      simp [alongSteps, he]
    | some e =>
      obtain ⟨s', hs, h⟩ := runSteps_succ_eq_next h
      rw [noResetFor, alongSteps_succ _ he hs, List.all_append, Bool.and_eq_true] at hr
      obtain ⟨hre, hr⟩ := hr
      rw [ih h hr, (step_port hs he (by simpa using hre) u).answers, alongSteps_succ _ he hs, List.append_assoc]

/-- A run without a reset in which a unit that owes nothing is asked, and as many responses are taken as requests come:
the responses taken are the answers to the requests, and the unit owes nothing again. -/
theorem runSteps_taken {k : Nat} {s t : State} {u : UnitId} (h : runSteps k s = .next t)
    (hr : noResetFor k s = true) (hs : (port u s).owed = 0)
    (hn : (port u t).taken.length = (port u s).taken.length + (alongSteps (asked u) k s).length) :
    (port u t).taken.drop (port u s).taken.length = alongSteps (asked u) k s ∧
      (port u t).queued = [] ∧ (port u t).due = [] := by
  obtain ⟨-, -, hstart⟩ := Port.answers_of_owed_eq_zero hs
  have hans := runSteps_answers h hr u
  rw [← hstart] at hans
  have howed : (port u t).owed = 0 := by
    have hlen := (port u t).length_answers
    rw [hans, List.length_append] at hlen
    omega
  obtain ⟨hq, hd, htaken⟩ := Port.answers_of_owed_eq_zero howed
  exact ⟨by rw [htaken, hans, List.drop_left], hq, hd⟩

theorem alongSteps_asked_enc (k : Nat) (s : State) : alongSteps (asked .enc) k s = (encAsked k s).map encChunk :=
  alongSteps_map encChunk encPresentedBy k s

theorem alongSteps_asked_dec (k : Nat) (s : State) : alongSteps (asked .dec) k s = (decAsked k s).map decChunk :=
  alongSteps_map decChunk decPresentedBy k s

/-- `runSteps_taken` for ENC, in the state's own fields. -/
theorem encTaken_of_run {k : Nat} {s t : State} (hq : s.EQ = []) (hp : s.encHeld = none) (h : runSteps k s = .next t)
    (hr : noResetFor k s = true) (hn : t.encTaken.length = s.encTaken.length + (encAsked k s).length) :
    t.encTaken.drop s.encTaken.length = (encAsked k s).map encChunk ∧ t.EQ = [] ∧ t.encHeld = none := by
  have hrun := runSteps_taken (u := .enc) h hr (by simp [port, Port.owed, hq, hp])
    (by rw [alongSteps_asked_enc, List.length_map]; exact hn)
  rw [alongSteps_asked_enc] at hrun
  obtain ⟨htaken, hqueue, hdue⟩ := hrun
  exact ⟨htaken, hqueue, by simpa [port] using hdue⟩

/-- `runSteps_taken` for DEC, in the state's own fields. -/
theorem decTaken_of_run {k : Nat} {s t : State} (hq : s.DQ = []) (hp : s.decHeld = none) (h : runSteps k s = .next t)
    (hr : noResetFor k s = true) (hn : t.decTaken.length = s.decTaken.length + (decAsked k s).length) :
    t.decTaken.drop s.decTaken.length = (decAsked k s).map decChunk ∧ t.DQ = [] ∧ t.decHeld = none := by
  have hrun := runSteps_taken (u := .dec) h hr (by simp [port, Port.owed, hq, hp])
    (by rw [alongSteps_asked_dec, List.length_map]; exact hn)
  rw [alongSteps_asked_dec] at hrun
  obtain ⟨htaken, hqueue, hdue⟩ := hrun
  exact ⟨htaken, hqueue, by simpa [port] using hdue⟩

/-- Settles O56: the responses taken are the answers to the requests of `ENCODE b`, and their symbols are
`encode(b)`. -/
theorem encodeOnTheBlock : Obligations.EncodeOnTheBlock := by
  intro b s t k hq hp h hr hasked hn
  obtain ⟨htaken, hrest⟩ := encTaken_of_run hq hp h hr (by rwa [hasked])
  refine ⟨?_, hrest⟩
  rw [htaken, hasked, encodeResult, List.flatMap_map]
  rfl

/-- Settles O57: the responses taken are the answers to the requests presented; with all of them presented the result is
`decode(m)`, and after a failed chunk both are none. -/
theorem decodeOnTheBlock : Obligations.DecodeOnTheBlock := by
  intro m s t k hq hp h hr hprefix hstop hn
  obtain ⟨htaken, hrest⟩ := decTaken_of_run hq hp h hr hn
  refine ⟨?_, hrest⟩
  rw [htaken] at hstop ⊢
  rcases hstop with hall | ⟨r, hrsp, hst⟩
  · rw [hall, decodeResult_decodeRequests]
  · obtain ⟨w, hw, rfl⟩ := List.mem_map.mp hrsp
    have hbad : dRspStatus (decChunk w) ≠ statusOk := by rw [hst]; decide
    obtain ⟨hres, hmsg⟩ := decode_none_of_not_ok hprefix.subset hw hbad
    rw [hres, hmsg]

end Sys2Proof.Machine
end

section
/-! The precedence of the decoder's outcomes (spec 60_exceptions.md R129-R131, R133): an illegal count, then the first
invalid lane, then `OK`. -/

namespace Sys2Proof.Machine

/-- `DecChunk` of a legal request whose first invalid input symbol is in lane `k` (R88, R94). -/
theorem decChunk_of_firstInvalidAt {w : DReq} {k : Nat} (h : (dReqCnt w).toNat ≤ 8)
    (hk : FirstInvalidAt (decInput w) k) : decChunk w = decInvalid k := by
  rw [decChunk, if_neg (by omega), firstInvalid_eq_some.mpr hk, decInvalid]

/-- The `LEN` of a legal request with valid input symbols: the byte count, at most 5, fits the field (R90). -/
theorem dRspLen_decChunk_of_allValid {w : DReq} (h : (dReqCnt w).toNat ≤ 8) (hv : AllValid (decInput w)) :
    (dRspLen (decChunk w)).toNat = decCount (dReqCnt w).toNat := by
  have hfits : decCount (dReqCnt w).toNat < 2 ^ 3 := by
    unfold decCount
    omega
  rw [decChunk_of_allValid h hv, dRspLen_word, BitVec.toNat_ofNat, Nat.mod_eq_of_lt hfits]

/-- Settles O46: the count is tested before any symbol is read, and the scan of a legal request's symbols decides
between the first invalid lane and `OK`. -/
theorem statusIsOneAndFirst : Obligations.StatusIsOneAndFirst := by
  intro w
  refine ⟨decChunk_illegal, fun hcnt k hk => decChunk_of_firstInvalidAt hcnt hk, fun hcnt hv => ⟨?_, ?_, ?_⟩⟩
  · rw [decChunk_of_allValid hcnt hv, dRspStatus_word, statusOk]
  · rw [decChunk_of_allValid hcnt hv, dRspErrIdx_word]
  · exact dRspLen_decChunk_of_allValid hcnt hv

end Sys2Proof.Machine
end

section
/-! What becomes of a host program after the schedule's end (spec 30_encoding.md R69, 70_reset_and_hazards.md R152): one
that keeps within the depths runs to its end, each statement leading from one idle state to the next; one that asks for
more than a unit's depth stays among those requests; and a take with nothing queued waits for ever. -/

namespace Sys2Proof.Machine

/-! ### What stands at the ports -/

theorem encode_decodeWord (w : PortWord) : encode (decodeWord w) = w := by
  cases w with
  | enc w => exact encode_decodeEReq w
  | dec w => exact encode_decodeDReq w

theorem portFree_iff {u : UnitId} {s : State} : portFree u s = true ↔ (port u s).due = [] := by
  cases u <;> simp [port]

theorem canAccept_of_due_eq_nil {u : UnitId} {s : State} (h : (port u s).due = []) : canAccept u s = false :=
  Bool.eq_false_iff.mpr fun hc => (canAccept_iff.mp hc).1 h

theorem hostFree_waiting_iff {s : State} : hostFree .waiting s = true ↔ ∀ u, (port u s).due = [] := by
  simp only [hostFree, Bool.and_eq_true, portFree_iff]
  exact ⟨fun h u => by cases u <;> simp [h], fun h => ⟨h .enc, h .dec⟩⟩

theorem port_program (u : UnitId) (s : State) (p : List HostStmt) : port u { s with program := p } = port u s := by
  cases u <;> rfl

/-- The answer of a unit to a request word, none for a word of the other port. -/
def answerTo : (u : UnitId) → PortWord → List (Rsp u)
  | .enc, .enc w => [encChunk w]
  | .dec, .dec w => [decChunk w]
  | .enc, .dec _ => []
  | .dec, .enc _ => []

theorem length_answerTo_unit (w : PortWord) : (answerTo w.unit w).length = 1 := by
  cases w <;> rfl

theorem answerTo_of_ne {w : PortWord} {u : UnitId} (h : u ≠ w.unit) : answerTo u w = [] :=
  match u, w, h with
  | .enc, .dec _, _ => rfl
  | .dec, .enc _, _ => rfl

/-- The answers of a unit to the requests of a program, in order. -/
def requested : (u : UnitId) → List HostStmt → List (Rsp u)
  | .enc, p => (encRequested p).map encChunk
  | .dec, p => (decRequested p).map decChunk

theorem requested_append (u : UnitId) (p q : List HostStmt) :
    requested u (p ++ q) = requested u p ++ requested u q := by
  cases u <;> simp [requested, encRequested, decRequested]

@[simp] theorem requested_nil (u : UnitId) : requested u [] = [] := by
  cases u <;> rfl

@[simp] theorem requested_request (u : UnitId) (i : Instr) : requested u [.request i] = answerTo u (encode i) := by
  cases u <;> cases hw : encode i <;> simp [requested, encRequested, decRequested, answerTo, hw]

@[simp] theorem requested_take (u v : UnitId) : requested u [.take v] = [] := by
  cases u <;> rfl

/-- A word that comes to a free port makes its answer due. -/
theorem port_present {w : PortWord} {s : State} (h : portFree w.unit s = true) (u : UnitId) :
    port u (present w s) = ⟨(port u s).taken, (port u s).queued, (port u s).due ++ answerTo u w⟩ := by
  cases w with
  | enc w =>
    have h : s.encHeld = none := by simpa [PortWord.unit] using h
    rw [present_enc_free h]
    cases u <;> simp [port, answerTo, h]
  | dec w =>
    have h : s.decHeld = none := by simpa [PortWord.unit] using h
    rw [present_dec_free h]
    cases u <;> simp [port, answerTo, h]

/-- The host presents a word, whatever program and schedule are left. -/
theorem port_presented {w : PortWord} {s : State} (h : portFree w.unit s = true) (q : List HostStmt) (es : List Event)
    (u : UnitId) : port u (present w { s with program := q, schedule := es }) =
      ⟨(port u s).taken, (port u s).queued, (port u s).due ++ answerTo u w⟩ := by
  rw [port_present (by cases w <;> exact h)]
  cases u <;> rfl

/-- Where only `u` has a request, its acceptance leaves no answer due at either unit. -/
theorem port_accept_only {u : UnitId} {s : State} (h : ∀ v, v ≠ u → (port v s).due = []) (v : UnitId) :
    port v (transferred (.accept u) s) = ⟨(port v s).taken, (port v s).queued ++ (port v s).due, []⟩ := by
  by_cases hv : v = u
  · subst hv
    cases v <;> rfl
  · rw [port_transferred_other (x := .accept u) (Ne.symm hv), h v hv, List.append_nil, ← h v hv]

/-! ### An idle block and its host -/

/-- The host may go on with its program: nothing scheduled, no request held, no reset asserted. -/
structure State.Idle (s : State) : Prop where
  ended : s.schedule = []
  due : ∀ u, (port u s).due = []
  released : s.resetLine = false

theorem State.AtRest.inv {s : State} (h : s.AtRest) : s.Inv :=
  let ⟨hE, hD, _, _, _⟩ := h
  ⟨by simp [hE], by simp [hD], by simp [hE], by simp [hD], fun _ => ⟨hE, hD⟩⟩

theorem State.AtRest.owed {s : State} (h : s.AtRest) (u : UnitId) : (port u s).owed = 0 := by
  obtain ⟨hE, hD, henc, hdec, -⟩ := h
  cases u <;> simp [port, Port.owed, *]

theorem State.AtRest.queued {s : State} (h : s.AtRest) (u : UnitId) : (port u s).queued = [] :=
  (Port.answers_of_owed_eq_zero (h.owed u)).1

theorem State.AtRest.idle {s : State} (h : s.AtRest) (hs : s.schedule = []) : s.Idle where
  ended := hs
  due u := let ⟨_, hdue, _⟩ := Port.answers_of_owed_eq_zero (h.owed u); hdue
  released := let ⟨_, _, _, _, hl⟩ := h; hl

/-- The host's next statement, once it can run, is what moves an idle block. -/
theorem State.Idle.nextEvent {s : State} {st : HostStmt} {q : List HostStmt} (h : s.Idle) (hp : s.program = st :: q)
    (hr : stmtReady st s = true) :
    hostNext .waiting s = some (st, q) ∧ s.nextEvent = some (.host .waiting) := by
  have hn : hostNext .waiting s = some (st, q) := hostNext_eq_some.mpr ⟨hp, hostFree_waiting_iff.mpr h.due, hr⟩
  exact ⟨hn, by simp [nextEvent_nil h.ended, fairEvent, canAccept_of_due_eq_nil (h.due _), hn]⟩

/-- An idle block is moved by its host, which runs its next statement once that can run. -/
theorem step_idle {s : State} {st : HostStmt} {q : List HostStmt} (h : s.Idle) (hp : s.program = st :: q)
    (hr : stmtReady st s = true) : step s = runStmt st { s with program := q } := by
  obtain ⟨hn, he⟩ := h.nextEvent hp hr
  rw [step_host he, hostTurn, hostNext_schedule, hn, h.ended, List.tail_nil, ← h.ended]

/-- A host whose next statement cannot run waits, and nobody else moves. -/
theorem State.Idle.quiet {s : State} {st : HostStmt} {q : List HostStmt} (h : s.Idle) (hp : s.program = st :: q)
    (hr : stmtReady st s = false) : s.Quiet :=
  ⟨h.ended, fun u => canAccept_of_due_eq_nil (h.due u), hostNext_not_ready hp hr⟩

/-- A unit that alone has a request and has room is the one to move. -/
theorem nextEvent_accept {s : State} {u : UnitId} (hs : s.schedule = []) (hc : canAccept u s = true)
    (h : ∀ v, v ≠ u → (port v s).due = []) : s.nextEvent = some (.transfer (.accept u)) := by
  rw [nextEvent_nil hs, fairEvent]
  cases u with
  | enc => exact if_pos hc
  | dec => rw [canAccept_of_due_eq_nil (h .enc (by decide))]; exact if_pos hc

/-! ### One statement run to its end -/

/-- The host's next statement, a request, comes to its port. -/
theorem step_idle_request {s : State} {i : Instr} {q : List HostStmt} (h : s.Idle) (hp : s.program = .request i :: q) :
    ∃ t, step s = .next t ∧ t.program = q ∧ t.schedule = [] ∧ t.resetLine = false ∧
      ∀ u, port u t = ⟨(port u s).taken, (port u s).queued, answerTo u (encode i)⟩ := by
  have hfree : portFree (encode i).unit s = true := portFree_iff.mpr (h.due _)
  obtain ⟨hn, he⟩ := h.nextEvent hp hfree
  have hstep := step_idle h hp hfree
  obtain ⟨hprog, -⟩ := present_work (encode i) { s with program := q }
  refine ⟨_, hstep, hprog, ?_, (step_resetLine hstep he (by simp [resetsBy, hn])).trans h.released, fun u => ?_⟩
  · rw [step_schedule hstep, h.ended, List.tail_nil]
  · rw [port_presented hfree q s.schedule, h.due u, List.nil_append]

/-- The one request held is accepted where its unit has room: its answer is queued. -/
theorem step_accept_only {s : State} {u : UnitId} (hi : s.Inv) (hs : s.schedule = []) (hc : canAccept u s = true)
    (h : ∀ v, v ≠ u → (port v s).due = []) :
    ∃ t, step s = .next t ∧ t.program = s.program ∧ t.schedule = [] ∧ t.resetLine = s.resetLine ∧
      ∀ v, port v t = ⟨(port v s).taken, (port v s).queued ++ (port v s).due, []⟩ := by
  have he := nextEvent_accept hs hc h
  obtain ⟨t, ht⟩ := step_next hi
  have htransfer := step_transfer he ht
  refine ⟨t, ht, ?_, by rw [step_schedule ht, hs, List.tail_nil], step_resetLine ht he rfl, fun v => ?_⟩
  · rw [htransfer, afterTransfer_program]
  · rw [htransfer, port_schedule v (afterTransfer _ s) s.schedule.tail, afterTransfer_can (x := .accept u) hc,
      port_accept_only h]

/-- A request with room at its unit is presented and accepted. -/
theorem run_request {s : State} {i : Instr} {q : List HostStmt} (h : s.Idle) (hi : s.Inv)
    (hp : s.program = .request i :: q) (hroom : (port (encode i).unit s).queued.length < depth (encode i).unit) :
    ∃ t, runSteps 2 s = .next t ∧ t.program = q ∧ t.Idle ∧
      ∀ u, port u t = ⟨(port u s).taken, (port u s).queued ++ answerTo u (encode i), []⟩ := by
  obtain ⟨v, hv, hvq, hvs, hvl, hvport⟩ := step_idle_request h hp
  have hc : canAccept (encode i).unit v = true := by
    rw [canAccept_iff, hvport]
    exact ⟨List.ne_nil_of_length_eq_add_one (length_answerTo_unit _), hvl, hroom⟩
  obtain ⟨t, ht, htv, hts, htl, htport⟩ := step_accept_only (everyStepKeepsInvariant s v hi hv) hvs hc
    (fun u hu => by rw [hvport, answerTo_of_ne hu])
  have hport (u : UnitId) : port u t = ⟨(port u s).taken, (port u s).queued ++ answerTo u (encode i), []⟩ := by
    rw [htport, hvport]
  exact ⟨t, by rw [runSteps_succ hv, runSteps_succ ht, runSteps_zero], htv.trans hvq,
    ⟨hts, fun u => by rw [hport], htl.trans hvl⟩, hport⟩

/-- A take with a response queued takes the oldest. -/
theorem run_take {s : State} {u : UnitId} {q : List HostStmt} {a : Rsp u} {rest : List (Rsp u)} (h : s.Idle)
    (hi : s.Inv) (hp : s.program = .take u :: q) (hq : (port u s).queued = a :: rest) :
    ∃ t, runSteps 1 s = .next t ∧ t.program = q ∧ t.Idle ∧
      port u t = ⟨(port u s).taken ++ [a], rest, []⟩ ∧ ∀ v, u ≠ v → port v t = port v s := by
  have hc : canDeliver u s = true := canDeliver_iff.mpr ⟨h.released, by simp [hq]⟩
  obtain ⟨hn, he⟩ := h.nextEvent hp hc
  obtain ⟨t, ht⟩ := step_next hi
  have htq : t = { transferred (.deliver u) s with program := q } := by
    have hd := ht
    rw [step_idle h hp hc, runStmt] at hd
    rw [deliver_eq_afterTransfer hd, afterTransfer_can (x := .deliver u) (by cases u <;> exact hc)]
    cases u <;> rfl
  have hsame : port u t = ⟨(port u s).taken ++ [a], rest, []⟩ := by
    rw [htq, port_program u (transferred _ s) q, port_deliver hq, h.due]
  have hother (v : UnitId) (hv : u ≠ v) : port v t = port v s := by
    rw [htq, port_program v (transferred _ s) q, port_transferred_other (x := .deliver u) hv]
  refine ⟨t, by rw [runSteps_succ ht, runSteps_zero], by rw [htq], ⟨?_, fun v => ?_, ?_⟩, hsame, hother⟩
  · rw [step_schedule ht, h.ended, List.tail_nil]
  · by_cases hv : u = v
    · subst hv; rw [hsame]
    · rw [hother v hv, h.due]
  · exact (step_resetLine ht he (by simp [resetsBy, hn])).trans h.released

/-! ### A program within the depths -/

/-- The program `p` has run from `s` to `t`: the block is idle again, the answers to the requests of `p` have joined
those of their units, and the host has taken as many responses as `p` has takes. -/
structure Completes (p : List HostStmt) (s t : State) : Prop where
  idle : t.Idle
  answers : ∀ u, (port u t).answers = (port u s).answers ++ requested u p
  taken : ∀ u, (port u t).taken.length = (port u s).taken.length + p.count (.take u)

theorem Completes.cons {st : HostStmt} {p : List HostStmt} {s v t : State} (h : Completes [st] s v)
    (h' : Completes p v t) : Completes (st :: p) s t where
  idle := h'.idle
  answers u := by rw [h'.answers, h.answers, List.append_assoc, ← requested_append, List.singleton_append]
  taken u := by rw [h'.taken, h.taken, Nat.add_assoc, ← List.count_append, List.singleton_append]

theorem Completes.request {s t : State} {i : Instr} (h : s.Idle) (ht : t.Idle)
    (hport : ∀ u, port u t = ⟨(port u s).taken, (port u s).queued ++ answerTo u (encode i), []⟩) :
    Completes [.request i] s t where
  idle := ht
  answers u := by simp [Port.answers, hport, h.due]
  taken u := by simp [hport]

theorem Completes.take {s t : State} {u : UnitId} {a : Rsp u} {rest : List (Rsp u)} (h : s.Idle) (ht : t.Idle)
    (hq : (port u s).queued = a :: rest) (hsame : port u t = ⟨(port u s).taken ++ [a], rest, []⟩)
    (hother : ∀ v, u ≠ v → port v t = port v s) : Completes [.take u] s t where
  idle := ht
  answers v := by
    by_cases hv : u = v
    · subst hv; simp [Port.answers, hsame, hq, h.due]
    · simp [hother v hv]
  taken v := by
    by_cases hv : u = v
    · subst hv; simp [hsame]
    · simp [hother v hv, hv]

/-- A program within the depths runs to its end, whatever comes after it (70_reset_and_hazards.md R152). -/
theorem completes_of_withinDepth {p q : List HostStmt} {s : State} (h : s.Idle) (hi : s.Inv) (hp : s.program = p ++ q)
    (hw : withinDepth (port .enc s).queued.length (port .dec s).queued.length p = true) :
    ∃ k t, runSteps k s = .next t ∧ t.program = q ∧ Completes p s t := by
  induction p generalizing s with
  | nil => exact ⟨0, s, rfl, hp, h, by simp, by simp⟩
  | cons st p ih =>
    cases st with
    | request i =>
      have hroom : (port (encode i).unit s).queued.length < depth (encode i).unit := by
        cases hu : encode i <;> simp_all [withinDepth, PortWord.unit, depth]
      obtain ⟨v, hv, hvp, hvi, hport⟩ := run_request h hi hp hroom
      have hrest : withinDepth (port .enc v).queued.length (port .dec v).queued.length p = true := by
        cases hu : encode i <;> simp_all [withinDepth, PortWord.unit, answerTo]
      obtain ⟨k, t, ht, htq, hc⟩ := ih hvi (runSteps_keeps everyStepKeepsInvariant hi hv) hvp hrest
      exact ⟨2 + k, t, (runSteps_add hv).trans ht, htq, .cons (.request h hvi hport) hc⟩
    | take u =>
      obtain ⟨a, rest, hq⟩ : ∃ a rest, (port u s).queued = a :: rest := by
        refine List.exists_cons_of_ne_nil fun hq => ?_
        cases u <;> simp [hq, withinDepth] at hw
      obtain ⟨v, hv, hvp, hvi, hsame, hother⟩ := run_take h hi hp hq
      have hrest : withinDepth (port .enc v).queued.length (port .dec v).queued.length p = true := by
        cases u
        · simpa [hsame, hother .dec, hq, withinDepth] using hw
        · simpa [hsame, hother .enc, hq, withinDepth] using hw
      obtain ⟨k, t, ht, htq, hc⟩ := ih hvi (runSteps_keeps everyStepKeepsInvariant hi hv) hvp hrest
      exact ⟨1 + k, t, (runSteps_add hv).trans ht, htq, .cons (.take h hvi hq hsame hother) hc⟩
    | reset => simp [withinDepth] at hw

/-- Where a program takes all it asks for, a unit that owed nothing owes nothing again, and the responses taken are the
answers. -/
theorem Completes.taken_eq {p : List HostStmt} {s t : State} {u : UnitId} (h : Completes p s t)
    (hs : (port u s).owed = 0) (hc : p.count (.take u) = (requested u p).length) :
    (port u t).queued = [] ∧ (port u t).taken = (port u s).taken ++ requested u p := by
  obtain ⟨-, -, hstart⟩ := Port.answers_of_owed_eq_zero hs
  have hans := h.answers u
  rw [← hstart] at hans
  have howed : (port u t).owed = 0 := by
    have hlen := (port u t).length_answers
    rw [hans, List.length_append, h.taken] at hlen
    omega
  obtain ⟨hq, -, htaken⟩ := Port.answers_of_owed_eq_zero howed
  exact ⟨hq, htaken.trans hans⟩

/-- From rest, a program that takes all it asks for changes what is taken, and no other field but the program. -/
theorem Completes.eq_of_takes_all {p : List HostStmt} {s t : State} (h : Completes p s t) (hs : s.AtRest)
    (hsched : s.schedule = []) (hc : ∀ u, p.count (.take u) = (requested u p).length) :
    t = { s with
      encTaken := s.encTaken ++ requested .enc p
      decTaken := s.decTaken ++ requested .dec p
      program := t.program } := by
  obtain ⟨hEQ, hencTaken⟩ := h.taken_eq (hs.owed .enc) (hc .enc)
  obtain ⟨hDQ, hdecTaken⟩ := h.taken_eq (hs.owed .dec) (hc .dec)
  have henc := h.idle.due .enc
  have hdec := h.idle.due .dec
  have hended := h.idle.ended
  have hline := h.idle.released
  obtain ⟨hEQ₀, hDQ₀, henc₀, hdec₀, hline₀⟩ := hs
  rcases s with ⟨⟩
  rcases t with ⟨⟩
  simp_all [port]

/-! ### One request outstanding at a time -/

/-- A program that presents each request and takes its answer before the next. -/
def serial (ws : List PortWord) : List HostStmt := ws.flatMap fun w => [.request (decodeWord w), .take w.unit]

theorem serial_cons (w : PortWord) (ws : List PortWord) :
    serial (w :: ws) = [.request (decodeWord w)] ++ [.take w.unit] ++ serial ws := rfl

theorem encodeProgram_eq_serial (b : List Byte) : encodeProgram b = serial ((encodeRequests b).map .enc) := by
  simp [encodeProgram, serial, List.flatMap_map, decodeWord, PortWord.unit]

theorem decodeProgram_eq_serial (m : List Sym) : decodeProgram m = serial ((decodeRequests m).map .dec) := by
  simp [decodeProgram, serial, List.flatMap_map, decodeWord, PortWord.unit]

theorem requested_serial (u : UnitId) (ws : List PortWord) : requested u (serial ws) = ws.flatMap (answerTo u) := by
  induction ws with
  | nil => exact requested_nil u
  | cons w ws ih =>
    rw [serial_cons, requested_append, requested_append, requested_request, requested_take, encode_decodeWord, ih,
      List.append_nil, List.flatMap_cons]

theorem flatMap_answerTo_enc (ws : List EReq) :
    (ws.map .enc).flatMap (answerTo .enc) = ws.map encChunk ∧ (ws.map .enc).flatMap (answerTo .dec) = [] := by
  induction ws with
  | nil => exact ⟨rfl, rfl⟩
  | cons w ws ih => simp [answerTo, ih]

theorem flatMap_answerTo_dec (ws : List DReq) :
    (ws.map .dec).flatMap (answerTo .enc) = [] ∧ (ws.map .dec).flatMap (answerTo .dec) = ws.map decChunk := by
  induction ws with
  | nil => exact ⟨rfl, rfl⟩
  | cons w ws ih => simp [answerTo, ih]

theorem count_take_serial (u : UnitId) (ws : List PortWord) :
    (serial ws).count (.take u) = (ws.flatMap (answerTo u)).length := by
  induction ws with
  | nil => rfl
  | cons w ws ih =>
    have hone : [HostStmt.take w.unit].count (.take u) = (answerTo u w).length := by
      cases u <;> cases w <;> rfl
    rw [serial_cons, List.count_append, List.count_append, hone, ih]
    simp

theorem withinDepth_serial (ws : List PortWord) : withinDepth 0 0 (serial ws) = true := by
  induction ws with
  | nil => rfl
  | cons w ws ih =>
    have henc := depth_pos .enc
    have hdec := depth_pos .dec
    cases w <;> simp_all [serial, withinDepth, encode_decodeWord, PortWord.unit, depth]

/-- From rest, a program with one request outstanding at a time runs to its end, at every depth. -/
theorem serial_completes (ws : List PortWord) (p : List HostStmt) {s : State} (h : s.AtRest) (hs : s.schedule = [])
    (hp : s.program = serial ws ++ p) : ∃ k, runSteps k s = .next { s with
      encTaken := s.encTaken ++ ws.flatMap (answerTo .enc)
      decTaken := s.decTaken ++ ws.flatMap (answerTo .dec)
      program := p } := by
  obtain ⟨k, t, ht, rfl, hc⟩ := completes_of_withinDepth (h.idle hs) h.inv hp (by
    rw [h.queued, h.queued]; exact withinDepth_serial ws)
  have heq := hc.eq_of_takes_all h hs fun u => by rw [count_take_serial, requested_serial]
  rw [requested_serial, requested_serial] at heq
  exact ⟨k, ht.trans (congrArg _ heq)⟩

/-! ### A program beyond a depth -/

/-- The host stands before `is` requests to the unit and then `p`, more answers being owed and asked for than the unit's
depth. -/
structure Overloaded (u : UnitId) (p : List HostStmt) (s : State) : Prop where
  inv : s.Inv
  ended : s.schedule = []
  beyond : ∃ is : List Instr, s.program = is.map .request ++ p ∧ (∀ i ∈ is, (encode i).unit = u) ∧
    depth u < is.length + (port u s).owed

theorem State.Inv.queued_le {s : State} (h : s.Inv) (u : UnitId) : (port u s).queued.length ≤ depth u := by
  cases u
  · exact h.encRoom
  · exact h.decRoom

/-- Where the host may go on, no more is owed than queued, so it stands before another request. -/
theorem Overloaded.next_request {u : UnitId} {p q : List HostStmt} {s : State} {st : HostStmt} (h : Overloaded u p s)
    (hn : hostNext .waiting s = some (st, q)) :
    ∃ (i : Instr) (is : List Instr), st = .request i ∧ q = is.map .request ++ p ∧ (encode i).unit = u ∧
      (∀ j ∈ is, (encode j).unit = u) ∧ depth u < is.length + (port u s).owed + 1 := by
  obtain ⟨hp, hfree, -⟩ := hostNext_eq_some.mp hn
  obtain ⟨is, hprog, hunit, hbeyond⟩ := h.beyond
  have hroom := h.inv.queued_le u
  have howed : (port u s).owed = (port u s).queued.length := by
    simp [Port.owed, hostFree_waiting_iff.mp hfree u]
  cases is with
  | nil =>
    rw [List.length_nil] at hbeyond
    omega
  | cons i is =>
    rw [hp, List.map_cons, List.cons_append, List.cons.injEq] at hprog
    rw [List.length_cons] at hbeyond
    obtain ⟨hst, hq⟩ := hprog
    exact ⟨i, is, hst, hq, hunit i List.mem_cons_self,
      fun j hj => hunit j (List.mem_cons_of_mem i hj), by omega⟩

/-- An acceptance takes no response and leaves as much owed. -/
theorem port_afterTransfer_accept (u v : UnitId) (s : State) :
    (port u (afterTransfer (.accept v) s)).taken = (port u s).taken ∧
      (port u (afterTransfer (.accept v) s)).owed = (port u s).owed := by
  have htaken : (port u (afterTransfer (.accept v) s)).taken = (port u s).taken := by
    unfold afterTransfer
    split
    · cases u <;> cases v <;> rfl
    · rfl
  have hlen := (port u (afterTransfer (.accept v) s)).length_answers
  rw [(port_afterTransfer u (.accept v) s).answers, List.append_nil, Port.length_answers, htaken] at hlen
  exact ⟨htaken, by omega⟩

/-- An acceptance leaves the requests and what is owed. -/
theorem Overloaded.accepts {u v : UnitId} {p : List HostStmt} {s t : State} (hs : Overloaded u p s)
    (he : s.nextEvent = some (.transfer (.accept v))) (h : step s = .next t) :
    Overloaded u p t ∧ ∀ w, (port w t).taken = (port w s).taken := by
  have htransfer := step_transfer he h
  have hport (w : UnitId) : port w t = port w (afterTransfer (.accept v) s) := by
    rw [htransfer, port_schedule w (afterTransfer _ s) s.schedule.tail]
  have hprog : t.program = s.program := by rw [htransfer, afterTransfer_program]
  refine ⟨⟨everyStepKeepsInvariant s t hs.inv h, by rw [step_schedule h, hs.ended, List.tail_nil], ?_⟩, fun w => ?_⟩
  · obtain ⟨-, howed⟩ := port_afterTransfer_accept u v s
    rw [hport, howed, hprog]
    exact hs.beyond
  · obtain ⟨htaken, -⟩ := port_afterTransfer_accept w v s
    rw [hport, htaken]

/-- The host's turn brings a request, which then is owed. -/
theorem Overloaded.presents {u : UnitId} {p q : List HostStmt} {s t : State} {st : HostStmt} (hs : Overloaded u p s)
    (he : s.nextEvent = some (.host .waiting)) (hn : hostNext .waiting s = some (st, q)) (h : step s = .next t) :
    Overloaded u p t ∧ ∀ w, (port w t).taken = (port w s).taken := by
  have hinv := everyStepKeepsInvariant s t hs.inv h
  have hended : t.schedule = [] := by rw [step_schedule h, hs.ended, List.tail_nil]
  obtain ⟨i, is, rfl, rfl, rfl, his, hbeyond⟩ := hs.next_request hn
  obtain ⟨-, -, hfree⟩ := hostNext_eq_some.mp hn
  rw [step_host he, hostTurn, hostNext_schedule, hn] at h
  cases h
  have hport (w : UnitId) := port_presented hfree (is.map .request ++ p) s.schedule.tail w
  obtain ⟨hprog, -⟩ := present_work (encode i)
    { s with program := is.map .request ++ p, schedule := s.schedule.tail }
  refine ⟨⟨hinv, hended, is, hprog, his, ?_⟩, fun w => by rw [hport]⟩
  rw [hport, Port.owed, List.length_append, length_answerTo_unit]
  exact hbeyond

/-- Such a host stays among these requests, and takes nothing. -/
theorem step_overloaded {u : UnitId} {p : List HostStmt} {s t : State} (hs : Overloaded u p s) (h : step s = .next t) :
    Overloaded u p t ∧ ∀ w, (port w t).taken = (port w s).taken := by
  cases he : s.nextEvent with
  | none => rw [step_quiet he] at h; cases h; exact ⟨hs, fun _ => rfl⟩
  | some e =>
    rcases fairEvent_eq_some (nextEvent_nil hs.ended ▸ he) with ⟨v, rfl, -⟩ | ⟨rfl, st, q, hn⟩
    · exact hs.accepts he h
    · exact hs.presents he hn h

theorem overloaded_stalls {u : UnitId} {p : List HostStmt} {s : State} (hs : Overloaded u p s) (k : Nat) :
    ∃ t q, runSteps k s = .next t ∧ t.program = q ++ p ∧ t.encTaken = s.encTaken ∧ t.decTaken = s.decTaken := by
  obtain ⟨t, ht⟩ := runsSafely_of_inv hs.inv k
  obtain ⟨hload, htaken⟩ := runSteps_keeps
    (P := fun t => Overloaded u p t ∧ ∀ v, (port v t).taken = (port v s).taken)
    (fun v w ⟨hv, hvs⟩ hstep => (step_overloaded hv hstep).imp_right fun hwv x => (hwv x).trans (hvs x))
    ⟨hs, fun _ => rfl⟩ ht
  obtain ⟨is, hprog, -⟩ := hload.beyond
  exact ⟨t, _, ht, hprog, htaken .enc, htaken .dec⟩

/-- From rest, a program that begins with more requests to a unit than its depth. -/
theorem State.AtRest.overloaded {u : UnitId} {is : List Instr} {p : List HostStmt} {s : State} (h : s.AtRest)
    (hs : s.schedule = []) (hp : s.program = is.map .request ++ p) (hu : ∀ i ∈ is, (encode i).unit = u)
    (hd : depth u < is.length) : Overloaded u p s :=
  ⟨h.inv, hs, is, hp, hu, by omega⟩

/-! ### The clauses together -/

theorem encodeProgram_completes (b : List Byte) (p : List HostStmt) (s : State) (h : s.AtRest) (hs : s.schedule = [])
    (hp : s.program = encodeProgram b ++ p) : ∃ k, runSteps k s =
      .next { s with encTaken := s.encTaken ++ (encodeRequests b).map encChunk, program := p } := by
  rw [encodeProgram_eq_serial] at hp
  obtain ⟨k, hk⟩ := serial_completes _ p h hs hp
  obtain ⟨henc, hdec⟩ := flatMap_answerTo_enc (encodeRequests b)
  exact ⟨k, by simpa [henc, hdec] using hk⟩

theorem decodeProgram_completes (m : List Sym) (p : List HostStmt) (s : State) (h : s.AtRest) (hs : s.schedule = [])
    (hp : s.program = decodeProgram m ++ p) : ∃ k, runSteps k s =
      .next { s with decTaken := s.decTaken ++ (decodeRequests m).map decChunk, program := p } := by
  rw [decodeProgram_eq_serial] at hp
  obtain ⟨k, hk⟩ := serial_completes _ p h hs hp
  obtain ⟨henc, hdec⟩ := flatMap_answerTo_dec (decodeRequests m)
  exact ⟨k, by simpa [henc, hdec] using hk⟩

theorem withinDepth_completes (s : State) (h : s.AtRest) (hs : s.schedule = [])
    (hw : withinDepth 0 0 s.program = true) :
    ∃ k t, runSteps k s = .next t ∧ t.program = [] ∧ t.encHeld = none ∧ t.decHeld = none ∧
      encAnswers t = encAnswers s ++ (encRequested s.program).map encChunk ∧
      decAnswers t = decAnswers s ++ (decRequested s.program).map decChunk ∧
      t.encTaken.length = s.encTaken.length + s.program.count (.take .enc) ∧
      t.decTaken.length = s.decTaken.length + s.program.count (.take .dec) := by
  obtain ⟨k, t, ht, hprog, hc⟩ := completes_of_withinDepth (h.idle hs) h.inv (List.append_nil _).symm
    (by rw [h.queued, h.queued]; exact hw)
  exact ⟨k, t, ht, hprog, by simpa [port] using hc.idle.due .enc, by simpa [port] using hc.idle.due .dec,
    hc.answers .enc, hc.answers .dec, hc.taken .enc, hc.taken .dec⟩

/-- A take at rest waits for ever: nothing is queued, and nobody else moves. -/
theorem take_waits (u : UnitId) (p : List HostStmt) (s : State) (h : s.AtRest) (hs : s.schedule = [])
    (hp : s.program = .take u :: p) (k : Nat) : runSteps k s = .next s := by
  have hc : canDeliver u s = false :=
    Bool.eq_false_iff.mpr fun hc => (canDeliver_iff.mp hc).2 (h.queued u)
  exact runSteps_quiet (nextEvent_eq_none.mpr ((h.idle hs).quiet hp hc)) k

/-- Settles O58: within the depths each statement of the program leads from one idle state to the next; beyond a depth
the host never gets past the requests, more being owed than can be queued; and a take with nothing queued is quiet. -/
theorem serialProgramsComplete : Obligations.SerialProgramsComplete := by
  refine ⟨encodeProgram_completes, decodeProgram_completes, withinDepth_completes, fun ws p s h hs hd hp => ?_,
    fun ws p s h hs hd hp => ?_, take_waits⟩
  · refine overloaded_stalls (h.overloaded (u := .enc) (is := ws.map decodeEReq) hs ?_ ?_ ?_)
    · rw [hp, List.map_map]; rfl
    · simp [encode_decodeEReq, PortWord.unit]
    · rw [List.length_map]; exact hd
  · refine overloaded_stalls (h.overloaded (u := .dec) (is := ws.map decodeDReq) hs ?_ ?_ ?_)
    · rw [hp, List.map_map]; rfl
    · simp [encode_decodeDReq, PortWord.unit]
    · rw [List.length_map]; exact hd

end Sys2Proof.Machine
end

section
/-! Request words and instructions (spec 30_encoding.md sections 1 and 2): decoding and encoding undo each other, and
the rows of the opcode table select the decoder's forms. -/

namespace Sys2Proof.Machine

/-! ### Words and instructions -/

/-- Settles O1: form by form, the word's count field selects the form again, and each lane read out of the packed word
is the operand packed there. -/
theorem decodeOfEncode : Obligations.DecodeOfEncode := by
  intro i
  cases i
  all_goals
    simp (disch := decide) only [encode, decodeWord, decodeEReq, decodeDReq, eReqLen_word, eReqData_word, dReqCnt_word,
      dReqSym_word, blane, lane8, Nat.reduceMul, Nat.reduceSub, BitVec.ofNat_eq_ofNat,
      BitVec.extractLsb'_append_eq_of_le, BitVec.extractLsb'_append_eq_of_add_le, BitVec.extractLsb'_eq_self]

/-- Settles O2, port by port. -/
theorem encodeOfDecode : Obligations.EncodeOfDecode
  | .enc w => encode_decodeEReq w
  | .dec w => encode_decodeDReq w

/-! ### The rows of the opcode table -/

/-- Masking with `k` ones at bit `n` leaves the `k`-bit field there, in place. -/
theorem and_fieldMask (w n k : Nat) : w &&& (2 ^ k - 1) <<< n = (w >>> n % 2 ^ k) <<< n := by
  refine Nat.eq_of_testBit_eq fun i => ?_
  by_cases h : n ≤ i <;>
    simp [Nat.testBit_shiftLeft, Nat.testBit_mod_two_pow, Nat.testBit_two_pow_sub_one, h, Bool.and_comm]

/-- A mask on the `LEN` bits leaves `LEN` in place (30_encoding.md R54). -/
theorem eReq_and_lenMask (w : EReq) : w.toNat &&& (2 ^ 3 - 1) <<< 40 = (eReqLen w).toNat <<< 40 := by
  rw [and_fieldMask, eReqLen, BitVec.extractLsb'_toNat]

/-- A mask on the `CNT` bits leaves `CNT` in place (30_encoding.md R57). -/
theorem dReq_and_cntMask (w : DReq) : w.toNat &&& (2 ^ 4 - 1) <<< 64 = (dReqCnt w).toNat <<< 64 := by
  rw [and_fieldMask, dReqCnt, BitVec.extractLsb'_toNat]

/-- `LEN` alone selects the form (30_encoding.md R59). -/
theorem mnemonic_decodeEReq (w : EReq) :
    (decodeEReq w).mnemonic = (decodeEReq (eReqWord (eReqLen w) 0)).mnemonic := by
  simp only [decodeEReq, eReqLen_word]
  split <;> rfl

/-- `CNT` alone selects the form (30_encoding.md R60). -/
theorem mnemonic_decodeDReq (w : DReq) :
    (decodeDReq w).mnemonic = (decodeDReq (dReqWord (dReqCnt w) 0)).mnemonic := by
  simp only [decodeDReq, dReqCnt_word]
  split <;> rfl

/-- Each row of the ENC port masks `LEN`, and the one `LEN` that its pattern holds selects the row's form. -/
theorem encRows_select : ∀ row ∈ encRows, row.mask = (2 ^ 3 - 1) <<< 40 ∧ ∀ n : BitVec 3,
    n.toNat <<< 40 = row.pattern ↔ (decodeEReq (eReqWord n 0)).mnemonic = row.mnemonic := by
  decide

/-- Each row of the DEC port masks `CNT`, and the one `CNT` that its pattern holds selects the row's form. -/
theorem decRows_select : ∀ row ∈ decRows, row.mask = (2 ^ 4 - 1) <<< 64 ∧ ∀ n : BitVec 4,
    n.toNat <<< 64 = row.pattern ↔ (decodeDReq (dReqWord n 0)).mnemonic = row.mnemonic := by
  decide

/-- Settles O3: a row's mask leaves the count field, the field alone selects the form, and field by field the rows and
the decoder agree. -/
theorem decodeFollowsOpcodeTable : Obligations.DecodeFollowsOpcodeTable := by
  refine ⟨fun row hrow w => ?_, fun row hrow w => ?_⟩
  · obtain ⟨hmask, hselect⟩ := encRows_select row hrow
    rw [hmask, eReq_and_lenMask, mnemonic_decodeEReq]
    exact hselect (eReqLen w)
  · obtain ⟨hmask, hselect⟩ := decRows_select row hrow
    rw [hmask, dReq_and_cntMask, mnemonic_decodeDReq]
    exact hselect (dReqCnt w)

/-- Settles O4: the spec's eight example words are evaluated. -/
theorem specWordsDecode : Obligations.SpecWordsDecode := by
  unfold Obligations.SpecWordsDecode
  decide

end Sys2Proof.Machine
end

section
/-! The forms without a payload and the illegal forms (spec 40_encoder.md R77, R83, R84, 41_decoder.md R99, R108-R114),
and where a form waits (20_memory.md R50). -/

namespace Sys2Proof.Machine

/-- Settles O5: ENC0's own meaning queues the response without a group (R77). -/
theorem enc0AnswersNothing : Obligations.Enc0AnswersNothing :=
  fun _ => encAnswers_of_payload rfl rfl (by decide)

/-- Settles O12: DEC0's own meaning validates no symbol and answers no byte (R99). -/
theorem dec0AnswersNothing : Obligations.Dec0AnswersNothing :=
  fun _ => decAnswers_of_input rfl rfl (by decide)

/-- Settles O11: both illegal forms are the acceptance of their word with the `ILLEGAL_REQUEST` response. -/
theorem encIllegalFormsAnswered : Obligations.EncIllegalFormsAnswered := by
  intro i d hi s hs
  have hx : ∃ w, exec i s = acceptEnc w encIllegal s := by
    rcases hi with rfl | rfl <;> exact ⟨_, rfl⟩
  obtain ⟨w, hx⟩ := hx
  exact ⟨encIllegal, hx.trans (acceptEnc_ready (encReady_iff.mpr hs)), eRspStatus_word .., eRspCnt_word ..,
    eRspSym_word ..⟩

/-- Settles O21: all seven illegal forms are the acceptance of their word with the `ILLEGAL_REQUEST` response. -/
theorem decIllegalFormsAnswered : Obligations.DecIllegalFormsAnswered := by
  intro i y hi s hs
  have hx : ∃ w, exec i s = acceptDec w decIllegal s := by
    simp only [List.mem_cons, List.not_mem_nil, or_false] at hi
    rcases hi with rfl | rfl | rfl | rfl | rfl | rfl | rfl <;> exact ⟨_, rfl⟩
  obtain ⟨w, hx⟩ := hx
  exact ⟨decIllegal, hx.trans (acceptDec_ready (decReady_iff.mpr hs)), dRspStatus_word .., dRspErrIdx_word ..,
    dRspLen_word .., dRspData_word ..⟩

/-- Settles O24: every form is the acceptance of its word, and a word that is not accepted is held. -/
theorem unacceptedRequestIsHeld : Obligations.UnacceptedRequestIsHeld := by
  refine ⟨fun i w hi s hs => ?_, fun i w hi s hs => ?_⟩
  · exact (exec_eq_acceptEnc hi s).trans (acceptEnc_held (Bool.eq_false_iff.mpr (mt encReady_iff.mp hs)))
  · exact (exec_eq_acceptDec hi s).trans (acceptDec_held (Bool.eq_false_iff.mpr (mt decReady_iff.mp hs)))

end Sys2Proof.Machine
end

section
/-! The turns of the units (spec 20_memory.md R38, R39, R42) and of the reset input (70_reset_and_hazards.md R143-R149):
what a turn to accept runs, where a delivery faults, and what a transfer or a reset leaves unchanged. -/

namespace Sys2Proof.Machine

/-! ### A unit's turn to accept -/

/-- Settles O26: a word on the port is decoded and run, an empty port lets the turn pass. -/
theorem stepRunsAcceptedRequest : Obligations.StepRunsAcceptedRequest := by
  refine fun s es => ⟨fun h => ⟨fun w hw => ?_, fun hw => ?_⟩, fun h => ⟨fun w hw => ?_, fun hw => ?_⟩⟩
  · rw [step_acceptEnc (nextEvent_cons h) hw, h, List.tail_cons]
  · rw [step_acceptEnc_none (nextEvent_cons h) hw, h, List.tail_cons]
  · rw [step_acceptDec (nextEvent_cons h) hw, h, List.tail_cons]
  · rw [step_acceptDec_none (nextEvent_cons h) hw, h, List.tail_cons]

/-! ### A table word placed on its port -/

/-- A table word is the number presented on its port (log 9). -/
theorem decodeTableWord_eq_some {nbits w : Nat} {i : Instr} (h : decodeTableWord nbits w = some i) :
    decodeNumber (tablePort nbits) w = .ok i := by
  unfold decodeTableWord at h
  split at h <;> cases h
  assumption

theorem decodeNumber_enc {w : Nat} {i : Instr} (h : decodeNumber .enc w = .ok i) :
    decodeEReq (BitVec.ofNat 43 w) = i := by
  simp only [decodeNumber] at h
  split_ifs at h
  exact Except.ok.inj h

theorem decodeNumber_dec {w : Nat} {i : Instr} (h : decodeNumber .dec w = .ok i) :
    decodeDReq (BitVec.ofNat 68 w) = i := by
  simp only [decodeNumber] at h
  split_ifs at h
  exact Except.ok.inj h

/-- The word placed on ENC's port is the next one to be tried. -/
theorem step_placeWord_enc {w : Nat} {i : Instr} (s : State) (h : decodeNumber .enc w = .ok i) :
    step (placeWord s .enc w) = exec i { s with encHeld := none } := by
  rw [← decodeNumber_enc h]
  exact step_acceptEnc rfl rfl

/-- The word placed on DEC's port is the next one to be tried. -/
theorem step_placeWord_dec {w : Nat} {i : Instr} (s : State) (h : decodeNumber .dec w = .ok i) :
    step (placeWord s .dec w) = exec i { s with decHeld := none } := by
  rw [← decodeNumber_dec h]
  exact step_acceptDec rfl rfl

/-- Settles O27: the table word decodes as the word on its port does, and a free port is left as it was. -/
theorem fetchWordRunsNext : Obligations.FetchWordRunsNext := by
  intro s nbits w i hi
  replace hi := decodeTableWord_eq_some hi
  unfold State.withFetchWord
  generalize tablePort nbits = u at hi ⊢
  cases u with
  | enc =>
    have hstep := step_placeWord_enc s hi
    refine ⟨fun _ => hstep, nofun, fun hf => hstep.trans (congrArg (exec i) ?_)⟩
    rw [← Option.isNone_iff_eq_none.mp hf]
  | dec =>
    have hstep := step_placeWord_dec s hi
    refine ⟨nofun, fun _ => hstep, fun hf => hstep.trans (congrArg (exec i) ?_)⟩
    rw [← Option.isNone_iff_eq_none.mp hf]

/-! ### Where a step faults -/

/-- The encoder responses that B32CORE cannot produce, written out (R64). -/
theorem eRspFault_isSome {r : ERsp} : (eRspFault r).isSome = true ↔
    eRspStatus r = 0b11 ∨ eRspStatus r = 0b01 ∨ (eRspCnt r).toNat ∈ [1, 3, 6, 9, 10, 11, 12, 13, 14, 15] := by
  unfold eRspFault
  generalize eRspStatus r = st, eRspCnt r = n
  revert st n
  decide

/-- The decoder responses that B32CORE cannot produce, written out (R64). -/
theorem dRspFault_isSome {r : DRsp} : (dRspFault r).isSome = true ↔
    dRspStatus r = 0b11 ∨ (dRspLen r).toNat ∈ [6, 7] := by
  unfold dRspFault
  generalize dRspStatus r = st, dRspLen r = n
  revert st n
  decide

/-- The oldest response queued at the unit is a word that B32CORE cannot produce (30_encoding.md R64). -/
def ImpossibleHead : UnitId → State → Prop
  | .enc, s => ∃ r rs, s.EQ = r :: rs ∧
    (eRspStatus r = 0b11 ∨ eRspStatus r = 0b01 ∨ (eRspCnt r).toNat ∈ [1, 3, 6, 9, 10, 11, 12, 13, 14, 15])
  | .dec, s => ∃ r rs, s.DQ = r :: rs ∧ (dRspStatus r = 0b11 ∨ (dRspLen r).toNat ∈ [6, 7])

/-- Only the queues are looked at. -/
theorem impossibleHead_of_queues (u : UnitId) (s : State) (p : List HostStmt) (es : List Event) :
    ImpossibleHead u { s with program := p, schedule := es } ↔ ImpossibleHead u s := by
  cases u <;> exact Iff.rfl

theorem deliver_next_or_fault (u : UnitId) (s : State) :
    (∃ t, deliver u s = .next t) ∨ ∃ f, deliver u s = .fault f := by
  refine or_iff_not_imp_left.mpr fun hn => ?_
  rw [not_exists] at hn
  cases u
  · obtain ⟨f, -, -, -, -, -, hf⟩ := deliverEnc_stops hn
    exact ⟨f, hf⟩
  · obtain ⟨f, -, -, -, -, -, hf⟩ := deliverDec_stops hn
    exact ⟨f, hf⟩

/-- A delivery faults exactly on an impossible oldest response that no reset holds back. -/
theorem deliver_faults_iff {u : UnitId} {s : State} :
    (∃ f, deliver u s = .fault f) ↔ s.resetLine = false ∧ ImpossibleHead u s := by
  constructor
  · rintro ⟨f, hf⟩
    have hn : ∀ t, deliver u s ≠ .next t := by simp [hf]
    cases u
    · obtain ⟨g, r, rs, hl, hq, hg, -⟩ := deliverEnc_stops hn
      exact ⟨hl, r, rs, hq, eRspFault_isSome.mp (Option.isSome_of_eq_some hg)⟩
    · obtain ⟨g, r, rs, hl, hq, hg, -⟩ := deliverDec_stops hn
      exact ⟨hl, r, rs, hq, dRspFault_isSome.mp (Option.isSome_of_eq_some hg)⟩
  · rintro ⟨hl, hi⟩
    cases u
    · obtain ⟨r, rs, hq, hr⟩ := hi
      obtain ⟨f, hf⟩ := Option.isSome_iff_exists.mp (eRspFault_isSome.mpr hr)
      exact ⟨f, by simp [deliver, deliverEnc, hl, hq, hf]⟩
    · obtain ⟨r, rs, hq, hr⟩ := hi
      obtain ⟨f, hf⟩ := Option.isSome_iff_exists.mp (dRspFault_isSome.mpr hr)
      exact ⟨f, by simp [deliver, deliverDec, hl, hq, hf]⟩

/-- An event that asks a unit to deliver is that unit's delivery, with the event and perhaps a take gone. -/
theorem step_of_deliversBy {s : State} {e : Event} {u : UnitId} (hn : s.nextEvent = some e)
    (hd : deliversBy e s = some u) : ∃ p, step s = deliver u { s with program := p, schedule := s.schedule.tail } := by
  unfold deliversBy at hd
  split at hd
  · cases hd
    exact ⟨s.program, step_deliver hn⟩
  · split at hd <;> cases hd
    rename_i p hhost
    refine ⟨p, ?_⟩
    rw [step_host hn, hostTurn, hostNext_schedule, hhost]
    rfl
  · cases hd

theorem hostTurn_next_of_not_delivers {s : State} {g : HostStyle} (hd : deliversBy (.host g) s = none) :
    ∃ t, hostTurn g s = .next t := by
  unfold hostTurn
  split
  · exact ⟨_, rfl⟩
  · rename_i st p hhost
    cases st with
    | request i => exact ⟨_, rfl⟩
    | take u => simp [deliversBy, hhost] at hd
    | reset => exact ⟨_, rfl⟩

/-- An event that asks no unit to deliver leads to a next state. -/
theorem step_next_of_not_delivers {s : State} {e : Event} (hn : s.nextEvent = some e) (hd : deliversBy e s = none) :
    ∃ t, step s = .next t := by
  rcases e with w | g | ((_ | _) | u) | x | _ | _
  · exact ⟨_, step_present hn⟩
  · rw [step_host hn]
    exact hostTurn_next_of_not_delivers (by simpa [deliversBy] using hd)
  · cases hw : s.encHeld with
    | none => exact ⟨_, step_acceptEnc_none hn hw⟩
    | some w => rw [step_acceptEnc hn hw]; exact exec_next ..
  · cases hw : s.decHeld with
    | none => exact ⟨_, step_acceptDec_none hn hw⟩
    | some w => rw [step_acceptDec hn hw]; exact exec_next ..
  · cases hd
  · exact ⟨_, step_reset hn⟩
  · exact ⟨_, step_assertReset hn⟩
  · exact ⟨_, step_releaseReset hn⟩

/-- A step leads to a next state or stops with a fault: no instruction is refused. -/
theorem step_next_or_fault (s : State) : (∃ t, step s = .next t) ∨ ∃ f, step s = .fault f := by
  cases hn : s.nextEvent with
  | none => exact .inl ⟨s, step_quiet hn⟩
  | some e =>
    cases hd : deliversBy e s with
    | none => exact .inl (step_next_of_not_delivers hn hd)
    | some u =>
      obtain ⟨p, hstep⟩ := step_of_deliversBy hn hd
      rw [hstep]
      exact deliver_next_or_fault u _

/-- What stops a step: the next event asks a unit to deliver, and no reset holds its impossible response back. -/
theorem step_faults_iff {s : State} : (∃ f, step s = .fault f) ↔ s.resetLine = false ∧
    ∃ e, s.nextEvent = some e ∧ ∃ u, deliversBy e s = some u ∧ ImpossibleHead u s := by
  constructor
  · rintro ⟨f, hf⟩
    cases hn : s.nextEvent with
    | none => cases (step_quiet hn).symm.trans hf
    | some e =>
      cases hd : deliversBy e s with
      | none =>
        obtain ⟨t, ht⟩ := step_next_of_not_delivers hn hd
        cases ht.symm.trans hf
      | some u =>
        obtain ⟨p, hstep⟩ := step_of_deliversBy hn hd
        obtain ⟨hl, hi⟩ := deliver_faults_iff.mp ⟨f, hstep.symm.trans hf⟩
        exact ⟨hl, e, rfl, u, hd, (impossibleHead_of_queues ..).mp hi⟩
  · rintro ⟨hl, e, hn, u, hd, hi⟩
    obtain ⟨p, hstep⟩ := step_of_deliversBy hn hd
    rw [hstep]
    exact deliver_faults_iff.mpr ⟨hl, (impossibleHead_of_queues ..).mpr hi⟩

/-- Settles O33: only an event that asks a unit to deliver can stop a step, and the delivery faults on an impossible
oldest response. -/
theorem stepFaultsExactlyOnImpossibleResponse : Obligations.StepFaultsExactlyOnImpossibleResponse := by
  refine fun s => ⟨step_faults_iff.trans (and_congr_right fun _ => exists_congr fun e => and_congr_right fun _ => ?_),
    fun x hx => ?_⟩
  · constructor
    · rintro ⟨_ | _, h⟩
      · exact .inl h
      · exact .inr h
    · rintro (h | h)
      · exact ⟨.enc, h⟩
      · exact ⟨.dec, h⟩
  · obtain ⟨t, ht⟩ | ⟨f, hf⟩ := step_next_or_fault s
    · cases ht.symm.trans hx
    · cases hf.symm.trans hx

/-! ### A unit's transfers -/

theorem canTransfer_of_reset {s : State} (h : s.resetLine = true) (x : Transfer) : canTransfer x s = false := by
  rcases x with (_ | _) | _ <;> simp [canTransfer, canAccept, canDeliver, encReady, decReady, h]

/-- Settles O29: no delivery faults while reset is asserted, so the step is the transfer's turn, and that passes. -/
theorem noTransferWhileResetAsserted : Obligations.NoTransferWhileResetAsserted := by
  intro s x es hl h
  have hnofault : ¬ ∃ f, step s = .fault f := by
    intro hf
    obtain ⟨hl', -⟩ := step_faults_iff.mp hf
    cases hl.symm.trans hl'
  obtain ⟨t, ht⟩ := (step_next_or_fault s).resolve_right hnofault
  rw [ht, step_transfer (nextEvent_cons h) ht, afterTransfer_cannot (canTransfer_of_reset hl x), h, List.tail_cons]

theorem step_scheduled_deliver {s : State} {u : UnitId} {es : List Event}
    (h : s.schedule = .transfer (.deliver u) :: es) : step s = deliver u { s with schedule := es } := by
  rw [step_deliver (nextEvent_cons h), h, List.tail_cons]

theorem deliverEnc_empty {s : State} (h : s.EQ = []) : deliverEnc s = .next s := by
  simp [deliverEnc, h]

theorem deliverDec_empty {s : State} (h : s.DQ = []) : deliverDec s = .next s := by
  simp [deliverDec, h]

/-- Settles O28: the turn is the unit's delivery, which hands over the oldest response or waits. -/
theorem deliverHandsOverTheOldest : Obligations.DeliverHandsOverTheOldest := by
  refine fun s es hl => ⟨fun h => ⟨fun r rs hq hr => ?_, fun hq => ?_⟩, fun h => ⟨fun r rs hq hr => ?_, fun hq => ?_⟩⟩
  · exact (step_scheduled_deliver h).trans (deliverEnc_oldest hl hq hr)
  · exact (step_scheduled_deliver h).trans (deliverEnc_empty hq)
  · exact (step_scheduled_deliver h).trans (deliverDec_oldest hl hq hr)
  · exact (step_scheduled_deliver h).trans (deliverDec_empty hq)

/-- A transfer of ENC leaves what is DEC's (20_memory.md R42). -/
theorem afterTransfer_enc_frame {x : Transfer} (hx : x.unit = .enc) (s : State) :
    (afterTransfer x s).DQ = s.DQ ∧ (afterTransfer x s).decHeld = s.decHeld ∧
      (afterTransfer x s).decTaken = s.decTaken := by
  unfold afterTransfer
  split
  · match x, hx with
    | .accept .enc, _ => exact ⟨rfl, rfl, rfl⟩
    | .deliver .enc, _ => exact ⟨rfl, rfl, rfl⟩
  · exact ⟨rfl, rfl, rfl⟩

/-- A transfer of DEC leaves what is ENC's (20_memory.md R42). -/
theorem afterTransfer_dec_frame {x : Transfer} (hx : x.unit = .dec) (s : State) :
    (afterTransfer x s).EQ = s.EQ ∧ (afterTransfer x s).encHeld = s.encHeld ∧
      (afterTransfer x s).encTaken = s.encTaken := by
  unfold afterTransfer
  split
  · match x, hx with
    | .accept .dec, _ => exact ⟨rfl, rfl, rfl⟩
    | .deliver .dec, _ => exact ⟨rfl, rfl, rfl⟩
  · exact ⟨rfl, rfl, rfl⟩

theorem scheduled_transfer_of_unit {s : State} {u : UnitId} {es : List Event}
    (h : s.schedule = .transfer (.accept u) :: es ∨ s.schedule = .transfer (.deliver u) :: es) :
    ∃ x : Transfer, x.unit = u ∧ s.schedule = .transfer x :: es := by
  rcases h with h | h
  · exact ⟨_, rfl, h⟩
  · exact ⟨_, rfl, h⟩

/-- Settles O34: such a step is a transfer of one unit, which touches that unit's queue, port and taken responses
alone. -/
theorem unitTransfersLeaveTheOtherUnit : Obligations.UnitTransfersLeaveTheOtherUnit := by
  refine fun s t es hstep => ⟨fun h => ?_, fun h => ?_⟩
  · obtain ⟨x, hx, hs⟩ := scheduled_transfer_of_unit h
    obtain ⟨hq, hh, ht⟩ := afterTransfer_enc_frame hx s
    rw [step_transfer (nextEvent_cons hs) hstep]
    exact ⟨hq, hh, ht, afterTransfer_resetLine x s, afterTransfer_program x s, by rw [hs, List.tail_cons]⟩
  · obtain ⟨x, hx, hs⟩ := scheduled_transfer_of_unit h
    obtain ⟨hq, hh, ht⟩ := afterTransfer_dec_frame hx s
    rw [step_transfer (nextEvent_cons hs) hstep]
    exact ⟨hq, hh, ht, afterTransfer_resetLine x s, afterTransfer_program x s, by rw [hs, List.tail_cons]⟩

/-! ### Reset -/

/-- Settles O30: a reset does not look at the transfer that falls together with it. -/
theorem resetDiscardsAndWins : Obligations.ResetDiscardsAndWins := by
  refine fun s es => ⟨fun x h => ?_, fun h => ?_⟩
  · rw [step_reset (nextEvent_cons h), h]; rfl
  · rw [step_assertReset (nextEvent_cons h), h]; rfl

/-- Settles O31: a release empties both queues, and no depth is 0. -/
theorem releasedResetLeavesUnitsReady : Obligations.ReleasedResetLeavesUnitsReady := by
  intro s es h
  refine ⟨_, step_releaseReset (nextEvent_cons h), rfl, rfl, ⟨rfl, depth_pos .enc⟩, ⟨rfl, depth_pos .dec⟩,
    rfl, rfl, rfl, rfl, rfl, ?_⟩
  rw [releaseReset_schedule, h, List.tail_cons]

/-- Settles O36: every field of the reset state is empty or released, and no depth is 0. -/
theorem resetStateMeetsInvariant : Obligations.ResetStateMeetsInvariant :=
  ⟨⟨rfl, rfl, rfl, rfl, rfl⟩, rfl, rfl, rfl, rfl, ⟨rfl, depth_pos .enc⟩, ⟨rfl, depth_pos .dec⟩,
    ⟨Nat.zero_le _, Nat.zero_le _, List.forall_mem_nil _, List.forall_mem_nil _, fun _ => ⟨rfl, rfl⟩⟩,
    ⟨List.forall_mem_nil _, List.forall_mem_nil _⟩⟩

end Sys2Proof.Machine
end

section
/-! The text of a request read back (spec 30_encoding.md R68): the digits of the lanes, the operand, the mnemonic, the
line. -/

namespace Sys2Proof.Machine

/-! ### Hexadecimal digits -/

theorem after_append (p t : Text) : after p (p ++ t) = some t := by
  induction p with
  | nil => cases t <;> rfl
  | cons c p ih => simp [after, ih]

theorem hexDigit?_hexChar : ∀ n < 16, hexDigit? (hexChar n) = some n := by decide

/-- Two digits of a printed lane are read as the lane, whatever was read before and comes after. -/
theorem hexNumberFrom_hexByte (acc n : Nat) (b : BitVec 8) (t : Text) :
    hexNumberFrom acc (n + 2) (hexByte b ++ t) = hexNumberFrom (256 * acc + b.toNat) n t := by
  have hhigh := hexDigit?_hexChar (b.toNat / 16) (by omega)
  have hlow := hexDigit?_hexChar (b.toNat % 16) (by omega)
  have hvalue : 16 * (16 * acc + b.toNat / 16) + b.toNat % 16 = 256 * acc + b.toNat := by omega
  simp only [hexByte, List.cons_append, List.nil_append, hexNumberFrom, hhigh, hlow, hvalue]

/-- The number that lanes of eight bits spell after `acc`, lane 0 the most significant. -/
def lanesNumber (acc : Nat) (bs : List (BitVec 8)) : Nat := bs.foldl (fun a b => 256 * a + b.toNat) acc

theorem hexNumberFrom_hexLanes (acc : Nat) (bs : List (BitVec 8)) :
    hexNumberFrom acc (2 * bs.length) (hexLanes bs) = some (lanesNumber acc bs) := by
  induction bs generalizing acc with
  | nil => rfl
  | cons b bs ih => exact (hexNumberFrom_hexByte acc (2 * bs.length) b (hexLanes bs)).trans (ih _)

theorem rawNumber_hexLanes (bs : List (BitVec 8)) :
    rawNumber (2 * bs.length) ("0x".toList ++ hexLanes bs) = some (lanesNumber 0 bs) := by
  rw [rawNumber, after_append]
  exact hexNumberFrom_hexLanes 0 bs

/-! ### The lanes of a word spell the word -/

theorem toNat_append_lane {n : Nat} (x : BitVec n) (b : BitVec 8) : (x ++ b).toNat = 256 * x.toNat + b.toNat := by
  rw [BitVec.toNat_append, ← Nat.shiftLeft_add_eq_or_of_lt b.isLt, Nat.shiftLeft_eq, Nat.mul_comm]

theorem symWord_lane8 (y : BitVec 64) : symWord (lane8 y) = y := by
  simp (disch := decide) only [symWord, lane8, BitVec.extractLsb'_append_extractLsb'_eq_extractLsb']
  exact BitVec.extractLsb'_eq_self ..

theorem lanesNumber_byteLanes (d : BitVec 40) : lanesNumber 0 (byteLanes d) = d.toNat := by
  conv => rhs; rw [← byteWord_blane d]
  simp only [byteWord, toNat_append_lane]
  simp [lanesNumber, byteLanes, List.range_succ]

theorem lanesNumber_symLanes (y : BitVec 64) : lanesNumber 0 (symLanes y) = y.toNat := by
  conv => rhs; rw [← symWord_lane8 y]
  simp only [symWord, toNat_append_lane]
  simp [lanesNumber, symLanes, List.range_succ]

theorem rawNumber_byteLanes (d : BitVec 40) :
    rawNumber 10 ("0x".toList ++ hexLanes (byteLanes d)) = some d.toNat :=
  (rawNumber_hexLanes (byteLanes d)).trans (congrArg some (lanesNumber_byteLanes d))

theorem rawNumber_symLanes (y : BitVec 64) :
    rawNumber 16 ("0x".toList ++ hexLanes (symLanes y)) = some y.toNat :=
  (rawNumber_hexLanes (symLanes y)).trans (congrArg some (lanesNumber_symLanes y))

/-! ### Operands and mnemonics -/

theorem encOperand_raw (n : Nat) (d : BitVec 40) :
    encOperand n (".raw ".toList ++ ("0x".toList ++ hexLanes (byteLanes d))) = some d := by
  simp only [encOperand, after_append, rawNumber_byteLanes, Option.map_some, BitVec.ofNat_toNat, BitVec.setWidth_eq]

theorem decOperand_raw (n : Nat) (y : BitVec 64) :
    decOperand n (".raw ".toList ++ ("0x".toList ++ hexLanes (symLanes y))) = some y := by
  simp only [decOperand, after_append, rawNumber_symLanes, Option.map_some, BitVec.ofNat_toNat, BitVec.setWidth_eq]

theorem illOperand_space (digits : Nat) (t : Text) : illOperand digits (" ".toList ++ t) = rawNumber digits t := by
  rw [illOperand, after_append]

theorem findName_enc {n : Nat} (h : n ≤ 5) (t : Text) :
    findName encNames ("ENC".toList ++ (decimal n ++ t)) = some (n, t) := by
  interval_cases n <;> rfl

theorem findName_encIll {n : Nat} (h : 5 < n) (h' : n < 8) (t : Text) :
    findName encNames ("ENC.ILL".toList ++ (decimal n ++ t)) = some (n, t) := by
  interval_cases n <;> rfl

theorem findName_dec {n : Nat} (h : n ≤ 8) (t : Text) :
    findName decNames ("DEC".toList ++ (decimal n ++ t)) = some (n, t) := by
  interval_cases n <;> rfl

theorem findName_decIll {n : Nat} (h : 8 < n) (h' : n < 16) (t : Text) :
    findName decNames ("DEC.ILL".toList ++ (decimal n ++ t)) = some (n, t) := by
  interval_cases n <;> rfl

/-! ### Request lines -/

/-- The line printed for an encoder request spells it (R68). -/
theorem readEncRequest_encRequestText (w : EReq) : readEncRequest (encRequestText w) = some w := by
  have hlen := (eReqLen w).isLt
  simp only [encRequestText]
  split
  case isTrue h =>
    simp only [readEncRequest, List.append_assoc, findName_enc h, if_pos h, encOperand_raw, Option.map_some,
      BitVec.ofNat_toNat, BitVec.setWidth_eq, eReqWord_fields]
  case isFalse h =>
    simp only [readEncRequest, List.append_assoc, findName_encIll (Nat.lt_of_not_le h) hlen, if_neg h, illOperand_space,
      rawNumber_byteLanes, Option.map_some, BitVec.ofNat_toNat, BitVec.setWidth_eq, eReqWord_fields]

/-- The line printed for a decoder request spells it (R68). -/
theorem readDecRequest_decRequestText (w : DReq) : readDecRequest (decRequestText w) = some w := by
  have hcnt := (dReqCnt w).isLt
  simp only [decRequestText]
  split
  case isTrue h =>
    simp only [readDecRequest, List.append_assoc, findName_dec h, if_pos h, decOperand_raw, Option.map_some,
      BitVec.ofNat_toNat, BitVec.setWidth_eq, dReqWord_fields]
  case isFalse h =>
    simp only [readDecRequest, List.append_assoc, findName_decIll (Nat.lt_of_not_le h) hcnt, if_neg h, illOperand_space,
      rawNumber_symLanes, Option.map_some, BitVec.ofNat_toNat, BitVec.setWidth_eq, dReqWord_fields]

/-- No encoder mnemonic begins as a decoder line does. -/
theorem readEncRequest_decRequestText (w : DReq) : readEncRequest (decRequestText w) = none := by
  unfold decRequestText
  dsimp only
  split <;> rfl

/-- Settles O60: the line printed for the instruction's word spells that word, and the word is the instruction's. -/
theorem requestTextReadsBack : Obligations.RequestTextReadsBack := by
  intro i
  have hdecode := decodeOfEncode i
  unfold readRequest requestText
  cases hi : encode i with
  | enc w =>
    rw [hi] at hdecode
    simp only [readEncRequest_encRequestText]
    exact congrArg some hdecode
  | dec w =>
    rw [hi] at hdecode
    simp only [readEncRequest_decRequestText, readDecRequest_decRequestText]
    exact congrArg some hdecode

end Sys2Proof.Machine
end
